-- ==== Sys2Proof/Word.lean ====
section
/-! DEFINITION. The word types of the core: bytes, byte strings, 16-byte blocks, keys (00_scope.md R12, R19, R20). -/

namespace Sys2Proof

/-- A byte (R19). -/
abbrev Byte := BitVec 8

/-- A finite byte string, byte 0 first (R19). -/
abbrev Bytes := List Byte

/-- A 16-byte block (R12, R20): byte 0 holds the most significant bits, so that the value as an unsigned number is
`int_BE` of its bytes (R21). Field elements, counter blocks, keystream blocks and tags are blocks (20_memory.md R63). -/
abbrev Block := BitVec 128

/-- A cipher key of KEY_BYTES = 16 bytes, byte 0 most significant (R11, 10_state.md R37). -/
abbrev Key := BitVec 128

/-- `zeros(n)`: n bytes of 0x00 (R19). -/
abbrev zeros (n : Nat) : Bytes := List.replicate n 0#8

end Sys2Proof
end

