-- ==== Sys2Proof/Config.lean ====
section
/-! DEFINITION. What is fixed for one core and does not change as it runs (00_scope.md section 3): the numbers the spec
gives, and the parameters it leaves open (the block cipher and the first counter block), which have no body here. -/

namespace Sys2Proof

/-- KEY_BYTES, the key length the cipher accepts (R11). DESIGN CHOICE (log entry 4): the spec's value for this core, 16. -/
abbrev Config.keyBytes : Nat := 16

/-- The tag length (R13). -/
abbrev Config.tagBytes : Nat := 16

/-- The IV length of the fast path of J0 derivation (R14). -/
abbrev Config.fastIvBytes : Nat := 12

/-- IV_MAX_BYTES (R15). -/
abbrev Config.ivMaxBytes : Nat := 2 ^ 61 - 1

/-- AAD_MAX_BYTES (R15). -/
abbrev Config.aadMaxBytes : Nat := 2 ^ 61 - 1

/-- C_MAX_BYTES (R15). -/
abbrev Config.cMaxBytes : Nat := 2 ^ 61 - 1

/-- FIRST_COUNTER (R16): which counter block gives the first keystream block of a session. -/
inductive FirstCounter where
  | inc32J0   -- INC32_J0, the default
  | j0        -- J0
  deriving DecidableEq, Repr, Inhabited

/-- The parameters of the core that the platform supplies (R10, R16, 60_exceptions.md R212). They are no part of State. -/
structure Platform where
  /-- CIPHER: the block cipher, forward direction only, a total function (R10). -/
  cipher : Key → Block → Block
  /-- FIRST_COUNTER (R16). -/
  firstCounter : FirstCounter
  deriving Inhabited

/-- The platform of the modelled core. Nothing constrains it, so a theorem about the core holds for every cipher and for
both values of FIRST_COUNTER (log entries 2 and 3). -/
opaque Config.platform : Platform

end Sys2Proof
end

