-- ==== Sys2Proof/Syntax.lean ====
section
/-! DEFINITION. The command set (30_encoding.md): what the host sends, what the core answers, and the thirteen commands as
one inductive with their operands already taken apart. -/

namespace Sys2Proof

/-- A command as the host issues it: the command word and the operand list (R90). -/
structure Command where
  cw  : BitVec 16
  ops : List Bytes
  deriving DecidableEq, Repr

/-- What the host can do to an instance between commands: issue a command, or assert reset
(60_exceptions.md R216, 70_reset_and_hazards.md R230). -/
inductive HostEvent where
  | command (cmd : Command)
  | reset
  deriving DecidableEq, Repr

/-- The status of a response (R95, 60_exceptions.md R200). -/
inductive Status where
  | ok
  | validationError
  | authenticationFailure
  deriving DecidableEq, Repr

/-- The ValidationError sub-codes, in the order of their numbers 0x01 to 0x0C (60_exceptions.md R201). -/
inductive SubCode where
  | badOpcode
  | reservedBits
  | badOperands
  | badKeyLength
  | badIvLength
  | badAadLength
  | badDataLength
  | badTagLength
  | outOfSequence
  | aadAlreadySet
  | directionMixed
  | ghNotInitialized
  deriving DecidableEq, Repr

/-- A response (R95). `sub` is `none` for the sub-code 0x00. -/
structure Response where
  status : Status
  sub    : Option SubCode
  out    : Bytes
  deriving DecidableEq, Repr

/-- The GHASH strategy a strategy bit selects (R93, 10_state.md R36). -/
inductive Strategy where
  | reference   -- S = 0, bit-serial
  | table       -- S = 1, table-accelerated
  deriving DecidableEq, Repr

/-- The thirteen opcodes (R98). -/
inductive Opcode where
  | gfMul
  | ghInit
  | ghUpdate
  | ghFinal
  | ghReset
  | ghOneshot
  | gcmInit
  | gcmAad
  | gcmEnc
  | gcmDec
  | gcmTag
  | gcmVerifyDec
  | gcmAbort
  deriving DecidableEq, Repr

/-- The operand formats (R94). -/
inductive Format where
  | fNone
  | fXY
  | fH
  | fD
  | fHAC
  | fKI
  | fKIACT
  deriving DecidableEq, Repr

/-- The commands, one constructor per row of the opcode table (R98). Operands whose length the format fixes (X, Y, H) are
blocks; the others are byte strings whose lengths the commands' own rules check (R94). -/
inductive Instr where
  | gfMul (x y : Block)
  | ghInit (s : Strategy) (h : Block)
  | ghUpdate (d : Bytes)
  | ghFinal
  | ghReset
  | ghOneshot (s : Strategy) (h : Block) (a c : Bytes)
  | gcmInit (s : Strategy) (k iv : Bytes)
  | gcmAad (a : Bytes)
  | gcmEnc (p : Bytes)
  | gcmDec (c : Bytes)
  | gcmTag
  | gcmVerifyDec (s : Strategy) (k iv a c t : Bytes)
  | gcmAbort
  deriving DecidableEq, Repr

/-- The opcode of a command (R98). -/
def Instr.opcode : Instr → Opcode
  | .gfMul _ _ => .gfMul
  | .ghInit _ _ => .ghInit
  | .ghUpdate _ => .ghUpdate
  | .ghFinal => .ghFinal
  | .ghReset => .ghReset
  | .ghOneshot _ _ _ _ => .ghOneshot
  | .gcmInit _ _ _ => .gcmInit
  | .gcmAad _ => .gcmAad
  | .gcmEnc _ => .gcmEnc
  | .gcmDec _ => .gcmDec
  | .gcmTag => .gcmTag
  | .gcmVerifyDec _ _ _ _ _ _ => .gcmVerifyDec
  | .gcmAbort => .gcmAbort

/-- The strategy a command names in its word; a command without a strategy bit has S = 0 there (R92, R93). -/
def Instr.strategy : Instr → Strategy
  | .ghInit s _ => s
  | .ghOneshot s _ _ _ => s
  | .gcmInit s _ _ => s
  | .gcmVerifyDec s _ _ _ _ _ => s
  | .gfMul _ _ => .reference
  | .ghUpdate _ => .reference
  | .ghFinal => .reference
  | .ghReset => .reference
  | .gcmAad _ => .reference
  | .gcmEnc _ => .reference
  | .gcmDec _ => .reference
  | .gcmTag => .reference
  | .gcmAbort => .reference

end Sys2Proof
end

