-- ==== Sys2Proof/WellFormed.lean ====
section
/-! DEFINITION. Which commands can be written as a byte frame (30_encoding.md R96): the operand count fits one byte, and
every operand length fits its eight-byte prefix. The lengths that the command rules check are no matter of form here: a
command that breaks one is a command, and its answer is a ValidationError (60_exceptions.md R201). -/

namespace Sys2Proof

/-- The length fits the prefix `BE_8(|op|)` of a frame (R96). -/
def operandFits (b : Bytes) : Bool := decide (b.length < 2 ^ 64)

/-- The operand count fits `BE_1(n)` and every operand its prefix (R96). -/
def Command.wf (cmd : Command) : Bool :=
  decide (cmd.ops.length < 2 ^ 8) && cmd.ops.all operandFits

/-- The operands of a command whose length its format leaves free (R94). -/
def Instr.freeOperands : Instr → List Bytes
  | .gfMul _ _ => []
  | .ghInit _ _ => []
  | .ghUpdate d => [d]
  | .ghFinal => []
  | .ghReset => []
  | .ghOneshot _ _ a c => [a, c]
  | .gcmInit _ k iv => [k, iv]
  | .gcmAad a => [a]
  | .gcmEnc p => [p]
  | .gcmDec c => [c]
  | .gcmTag => []
  | .gcmVerifyDec _ k iv a c t => [k, iv, a, c, t]
  | .gcmAbort => []

/-- Every operand of the command can be written in a frame (R96). -/
def Instr.wf (i : Instr) : Bool := i.freeOperands.all operandFits

end Sys2Proof
end

