-- ==== Sys2Proof/Decode.lean ====
section
/-! DEFINITION. The byte-order helpers (00_scope.md R21, 20_memory.md R64), the decoder of commands and of command frames,
and after it the encoder (30_encoding.md). -/

namespace Sys2Proof

/-! ## Byte order -/

/-- `int_BE(b)`: the unsigned number whose big-endian base-256 digits are the bytes (R21). -/
def intBE (b : Bytes) : Nat := b.foldl (fun acc x => 256 * acc + x.toNat) 0

/-- `BE_n(v)`: the n-byte big-endian encoding (R21); only the low n bytes of `v` are kept. -/
def beBytes : Nat → Nat → Bytes
  | 0, _ => []
  | n + 1, v => BitVec.ofNat 8 (v / 256 ^ n) :: beBytes n v

/-- The block with the given 16 bytes (R20, R21). -/
def Block.ofBytes (b : Bytes) : Block := BitVec.ofNat 128 (intBE b)

/-- The 16 bytes of a block, byte 0 first (20_memory.md R63). -/
def Block.toBytes (b : Block) : Bytes := beBytes 16 b.toNat

/-- The key with the given KEY_BYTES bytes (10_state.md R37). -/
def Key.ofBytes (b : Bytes) : Key := BitVec.ofNat 128 (intBE b)

/-! ## Command word fields and the opcode map -/

/-- OPC = cw[7:0] (R91). -/
def opcField (cw : BitVec 16) : BitVec 8 := cw.extractLsb' 0 8

/-- S = cw[8] (R91, R93). -/
def strategyBit (cw : BitVec 16) : Bool := cw.getLsbD 8

/-- RSV = cw[15:9] (R91). -/
def reservedField (cw : BitVec 16) : BitVec 7 := cw.extractLsb' 9 7

/-- The opcode numbers (R98). -/
def Opcode.code : Opcode → BitVec 8
  | .gfMul => 0x01#8
  | .ghInit => 0x10#8
  | .ghUpdate => 0x11#8
  | .ghFinal => 0x12#8
  | .ghReset => 0x13#8
  | .ghOneshot => 0x14#8
  | .gcmInit => 0x20#8
  | .gcmAad => 0x21#8
  | .gcmEnc => 0x22#8
  | .gcmDec => 0x23#8
  | .gcmTag => 0x24#8
  | .gcmVerifyDec => 0x25#8
  | .gcmAbort => 0x26#8

/-- The opcodes in the order of the opcode map (R98). -/
def Opcode.all : List Opcode :=
  [.gfMul, .ghInit, .ghUpdate, .ghFinal, .ghReset, .ghOneshot,
   .gcmInit, .gcmAad, .gcmEnc, .gcmDec, .gcmTag, .gcmVerifyDec, .gcmAbort]

/-- The opcode a field value selects; `none` for a reserved value (R98, R99). -/
def Opcode.ofCode (b : BitVec 8) : Option Opcode := Opcode.all.find? (fun o => o.code == b)

/-- The column "S used" of the opcode map (R92, R98). -/
def Opcode.usesStrategy : Opcode → Bool
  | .ghInit => true
  | .ghOneshot => true
  | .gcmInit => true
  | .gcmVerifyDec => true
  | .gfMul => false
  | .ghUpdate => false
  | .ghFinal => false
  | .ghReset => false
  | .gcmAad => false
  | .gcmEnc => false
  | .gcmDec => false
  | .gcmTag => false
  | .gcmAbort => false

/-- The column "format" of the opcode map (R98). -/
def Opcode.format : Opcode → Format
  | .gfMul => .fXY
  | .ghInit => .fH
  | .ghUpdate => .fD
  | .ghFinal => .fNone
  | .ghReset => .fNone
  | .ghOneshot => .fHAC
  | .gcmInit => .fKI
  | .gcmAad => .fD
  | .gcmEnc => .fD
  | .gcmDec => .fD
  | .gcmTag => .fNone
  | .gcmVerifyDec => .fKIACT
  | .gcmAbort => .fNone

/-- The strategy a value of the strategy bit selects (R93). -/
def Strategy.ofBit : Bool → Strategy
  | false => .reference
  | true => .table

/-- The strategy bit of a strategy (R93). -/
def Strategy.bit : Strategy → Bool
  | .reference => false
  | .table => true

/-! ## Decoding a command (R103) -/

/-- An operand of fixed length 16, as a block (R94). -/
def fixedOperand (b : Bytes) : Option Block :=
  if b.length = 16 then some (Block.ofBytes b) else none

/-- The command an opcode, a strategy and an operand list give; `none` where the operand count or a fixed length is wrong
(R94). -/
def decodeOperands (o : Opcode) (s : Strategy) (ops : List Bytes) : Option Instr :=
  match o with
  | .gfMul =>
    match ops with
    | [x, y] =>
      match fixedOperand x, fixedOperand y with
      | some x, some y => some (.gfMul x y)
      | _, _ => none
    | _ => none
  | .ghInit =>
    match ops with
    | [h] => (fixedOperand h).map (.ghInit s)
    | _ => none
  | .ghUpdate =>
    match ops with
    | [d] => some (.ghUpdate d)
    | _ => none
  | .ghFinal =>
    match ops with
    | [] => some .ghFinal
    | _ => none
  | .ghReset =>
    match ops with
    | [] => some .ghReset
    | _ => none
  | .ghOneshot =>
    match ops with
    | [h, a, c] => (fixedOperand h).map (fun h => .ghOneshot s h a c)
    | _ => none
  | .gcmInit =>
    match ops with
    | [k, iv] => some (.gcmInit s k iv)
    | _ => none
  | .gcmAad =>
    match ops with
    | [a] => some (.gcmAad a)
    | _ => none
  | .gcmEnc =>
    match ops with
    | [p] => some (.gcmEnc p)
    | _ => none
  | .gcmDec =>
    match ops with
    | [c] => some (.gcmDec c)
    | _ => none
  | .gcmTag =>
    match ops with
    | [] => some .gcmTag
    | _ => none
  | .gcmVerifyDec =>
    match ops with
    | [k, iv, a, c, t] => some (.gcmVerifyDec s k iv a c t)
    | _ => none
  | .gcmAbort =>
    match ops with
    | [] => some .gcmAbort
    | _ => none

/-- The decoder: a command, or the sub-code of the ValidationError the host gets, checked in the order of
60_exceptions.md R205 steps 1 to 3 (R92, R94, R99, R103). -/
def decode (cmd : Command) : Except SubCode Instr :=
  match Opcode.ofCode (opcField cmd.cw) with
  | none => .error .badOpcode
  | some o =>
    if reservedField cmd.cw ≠ 0#7 ∨ (strategyBit cmd.cw = true ∧ o.usesStrategy = false) then
      .error .reservedBits
    else
      match decodeOperands o (Strategy.ofBit (strategyBit cmd.cw)) cmd.ops with
      | none => .error .badOperands
      | some i => .ok i

/-! ## Decoding a byte stream (R96, R102) -/

/-- Why a byte stream gives no command. -/
inductive DecodeError where
  /-- The stream ends before the frame does: the receiver has no command yet (R96; DEDUCED, log entry 17). -/
  | incompleteFrame
  /-- A whole frame, whose command is refused with this sub-code (R103). -/
  | refused (sub : SubCode)
  deriving DecidableEq, Repr

/-- Read `n` operands, each `BE_8(|op|) ‖ op`, and give back the rest of the stream (R96). -/
def parseOperands : Nat → Bytes → Option (List Bytes × Bytes)
  | 0, b => some ([], b)
  | n + 1, b =>
    if b.length < 8 then none
    else
      let len := intBE (b.take 8)
      let body := b.drop 8
      if body.length < len then none
      else
        match parseOperands n (body.drop len) with
        | none => none
        | some (ops, rest) => some (body.take len :: ops, rest)

/-- Read one command frame `BE_2(cw) ‖ BE_1(n) ‖ operands` and give back the rest of the stream (R96). -/
def Command.parse (b : Bytes) : Option (Command × Bytes) :=
  match b with
  | c1 :: c0 :: n :: rest =>
    match parseOperands n.toNat rest with
    | none => none
    | some (ops, rest) => some (⟨BitVec.ofNat 16 (intBE [c1, c0]), ops⟩, rest)
  | _ => none

/-- The decoder on any bytes: the first command of the stream and the rest of it, or why there is none (R102, R103). -/
def decodeBytes (b : Bytes) : Except DecodeError (Instr × Bytes) :=
  match Command.parse b with
  | none => .error .incompleteFrame
  | some (cmd, rest) =>
    match decode cmd with
    | .error sub => .error (.refused sub)
    | .ok i => .ok (i, rest)

/-! ## Encoding -/

/-- The command word `RSV = 0 ‖ S ‖ OPC` (R91, R98). -/
def commandWord (o : Opcode) (s : Strategy) : BitVec 16 :=
  (0#7 ++ BitVec.ofBool s.bit) ++ o.code

/-- The operands of a command, in the order of its format (R94). -/
def Instr.operands : Instr → List Bytes
  | .gfMul x y => [x.toBytes, y.toBytes]
  | .ghInit _ h => [h.toBytes]
  | .ghUpdate d => [d]
  | .ghFinal => []
  | .ghReset => []
  | .ghOneshot _ h a c => [h.toBytes, a, c]
  | .gcmInit _ k iv => [k, iv]
  | .gcmAad a => [a]
  | .gcmEnc p => [p]
  | .gcmDec c => [c]
  | .gcmTag => []
  | .gcmVerifyDec _ k iv a c t => [k, iv, a, c, t]
  | .gcmAbort => []

/-- The encoder (R90, R91, R94, R98). -/
def encode (i : Instr) : Command := ⟨commandWord i.opcode i.strategy, i.operands⟩

/-- The operand part of a frame (R96). -/
def operandFrame (op : Bytes) : Bytes := beBytes 8 op.length ++ op

/-- The byte frame of a command (R96). -/
def Command.frame (cmd : Command) : Bytes :=
  beBytes 2 cmd.cw.toNat ++ beBytes 1 cmd.ops.length ++ cmd.ops.flatMap operandFrame

/-- The byte frame of a decoded command (R96). -/
def encodeBytes (i : Instr) : Bytes := (encode i).frame

/-! ## A word of the opcode table as a whole command -/

/-- Operands of zeros for a format: a length the format or a command rule fixes is kept (16 for X, Y and H, R94; KEY_BYTES
for the key, R11; 12 for the IV, R14; 16 for the tag, R13), and a free length is 0. DESIGN CHOICE (log entry 9). -/
def Format.zeroOperands : Format → List Bytes
  | .fNone => []
  | .fXY => [zeros 16, zeros 16]
  | .fH => [zeros 16]
  | .fD => [[]]
  | .fHAC => [zeros 16, [], []]
  | .fKI => [zeros Config.keyBytes, zeros Config.fastIvBytes]
  | .fKIACT => [zeros Config.keyBytes, zeros Config.fastIvBytes, [], [], zeros Config.tagBytes]

/-- The command whose word is the low 16 bits of `w` (only its low `nbits` bits count) and whose operands are zeros; a
reserved opcode has no format, and the command then carries no operand (R98, R99). -/
def tableCommand (nbits w : Nat) : Command :=
  let cw := BitVec.ofNat 16 (w % 2 ^ nbits)
  match Opcode.ofCode (opcField cw) with
  | none => ⟨cw, []⟩
  | some o => ⟨cw, o.format.zeroOperands⟩

/-- What the decoder reads from a word of the opcode table with operands of zeros. -/
def decodeTableWord (nbits w : Nat) : Option Instr :=
  match decode (tableCommand nbits w) with
  | .ok i => some i
  | .error _ => none

end Sys2Proof
end

