-- ==== Sys2Proof/Machine/State.lean ====
section
/-! DEFINITION. The state of one core instance (10_state.md), as plain data: the GCM context C, the GHASH context G, and the
model's own record of the host's side of the interface. -/

namespace Sys2Proof.Machine

/-- C.PHASE (R34), in the order of its numbers 0 to 4. -/
inductive Phase where
  | uninitialized
  | initialized
  | aadPhase
  | cipherPhase
  | finalized
  deriving DecidableEq, Repr

/-- The direction of a cipher pass (R35, 42_gcm.md R153). C.DIR is an `Option Direction`, `none` being NONE. -/
inductive Direction where
  | encrypt
  | decrypt
  deriving DecidableEq, Repr

/-- C.TBL and G.TBL (R42, R49). A VALID table is represented by the key it was built from, as R54 allows: its layout is
TABLE_LAYOUT, which nothing observes (log entry 5). -/
inductive Table where
  | invalid
  | valid (builtFrom : Block)
  deriving DecidableEq, Repr

/-- The GCM context C (R34 to R44). -/
structure GcmContext where
  phase  : Phase
  dir    : Option Direction
  strat  : Strategy
  key    : Key
  h      : Block
  j0     : Block
  ctr    : Block
  y      : Block
  tbl    : Table
  aadLen : BitVec 64
  cLen   : BitVec 64
  deriving DecidableEq, Repr

/-- The GHASH context G (R45 to R49). -/
structure GhashContext where
  valid : Bool
  strat : Strategy
  h     : Block
  y     : Block
  tbl   : Table
  deriving DecidableEq, Repr

/-- The state of one instance. `c` and `g` are the spec's two contexts (R31). `pending` and `responses` are the model's
(log entry 1): what the host sends from now on, in order (R33), and the responses returned so far, oldest first
(70_reset_and_hazards.md R247). -/
structure State where
  c         : GcmContext
  g         : GhashContext
  pending   : List HostEvent
  responses : List Response
  deriving DecidableEq, Repr

/-- The reasons a step can stop with a fault: none. Every command in every state has a defined response
(30_encoding.md R103, 70_reset_and_hazards.md R247), and 93_implementation_defined.md treats no behaviour as a fault. Nothing
raises one, and that is safe (DEDUCED, log entry 12). -/
inductive Fault where
  deriving DecidableEq, Repr

/-- The reasons a step can be refused. -/
inductive Refusal where
  /-- An instruction that has no meaning in the model yet. Only an arm of `exec` may answer it, and no arm does; that is
  safe. -/
  | notModelled (mnemonic : String)
  deriving DecidableEq, Repr

/-- The GCM context after reset (70_reset_and_hazards.md R231). -/
def GcmContext.reset : GcmContext where
  phase  := .uninitialized
  dir    := none
  strat  := .reference
  key    := 0
  h      := 0
  j0     := 0
  ctr    := 0
  y      := 0
  tbl    := .invalid
  aadLen := 0
  cLen   := 0

/-- The GHASH context after reset (70_reset_and_hazards.md R231). -/
def GhashContext.reset : GhashContext where
  valid := false
  strat := .reference
  h     := 0
  y     := 0
  tbl   := .invalid

/-- The instance right after reset, before the host has sent anything (R231, R232). -/
def State.reset : State where
  c         := GcmContext.reset
  g         := GhashContext.reset
  pending   := []
  responses := []

end Sys2Proof.Machine
end

