-- ==== Sys2Proof/Machine/Operands.lean ====
section
/-! DEFINITION. How the operands of a command are read: the block partition and the padding of a byte string
(20_memory.md R67 to R69), and the length checks of the command rules (60_exceptions.md R201, R205 step 5). -/

namespace Sys2Proof.Machine

/-- `⌈n/16⌉` (00_scope.md R22). -/
def blockCount (n : Nat) : Nat := (n + 15) / 16

/-- The first `m` blocks of a byte string (R67). -/
def takeBlocks : Nat → Bytes → List Bytes
  | 0, _ => []
  | m + 1, d => d.take 16 :: takeBlocks m (d.drop 16)

/-- The blocks of a byte string, the last one possibly short; none for the empty string (R67). -/
def blocks (d : Bytes) : List Bytes := takeBlocks (blockCount d.length) d

/-- Block j of a byte string, `D[16j .. min(16j+16, n))` (R67). -/
def blockAt (d : Bytes) (j : Nat) : Bytes := (d.drop (16 * j)).take 16

/-- `pad16(b)`, as a block, for a byte string of at most 16 bytes (00_scope.md R22, 20_memory.md R68). -/
def pad16 (b : Bytes) : Block := Block.ofBytes (b ++ zeros (16 - b.length))

/-- `blk ⊕ ks[0..|blk|)` (20_memory.md R69): the unused bytes of the keystream block are dropped. -/
def xorKeystream (blk : Bytes) (ks : Block) : Bytes := List.zipWith (· ^^^ ·) blk ks.toBytes

/-- `tags_equal` (42_gcm.md R161): all bytes are compared, with no early exit. -/
def tagsEqual (t u : Bytes) : Bool :=
  (List.zipWith (· ^^^ ·) t u).foldl (· ||| ·) 0#8 == 0#8

/-! ## Length checks: the sub-code a length raises, or `none` -/

/-- The key is KEY_BYTES long (R201, 42_gcm.md R155). -/
def keyLengthCheck (k : Bytes) : Option SubCode :=
  if k.length = Config.keyBytes then none else some .badKeyLength

/-- The IV is not empty and at most IV_MAX_BYTES long (R201, 42_gcm.md R155). -/
def ivLengthCheck (iv : Bytes) : Option SubCode :=
  if iv.length = 0 ∨ iv.length > Config.ivMaxBytes then some .badIvLength else none

/-- The AAD is at most AAD_MAX_BYTES long (R201, 42_gcm.md R156). -/
def aadLengthCheck (a : Bytes) : Option SubCode :=
  if a.length > Config.aadMaxBytes then some .badAadLength else none

/-- The data of a session, `total` bytes in all, is at most C_MAX_BYTES (R201, 42_gcm.md R157). -/
def dataLengthCheck (total : Nat) : Option SubCode :=
  if total > Config.cMaxBytes then some .badDataLength else none

/-- The expected tag is 16 bytes long (R201, 42_gcm.md R160). -/
def tagLengthCheck (t : Bytes) : Option SubCode :=
  if t.length = Config.tagBytes then none else some .badTagLength

end Sys2Proof.Machine
end

