-- ==== Sys2Proof/Machine/Flags.lean ====
section
/-! DEFINITION. The condition state of the core and the sequence checks made on it (10_state.md R50, 42_gcm.md R170,
60_exceptions.md R205 step 4), with the numeric codes of the state fields and of responses. The core has no arithmetic
flags. -/

namespace Sys2Proof.Machine

/-! ## Numeric codes -/

/-- The number of a phase in C.PHASE (R34). -/
def Phase.code : Phase → BitVec 3
  | .uninitialized => 0#3
  | .initialized => 1#3
  | .aadPhase => 2#3
  | .cipherPhase => 3#3
  | .finalized => 4#3

/-- The number of a direction in C.DIR (R35). -/
def dirCode : Option Direction → BitVec 2
  | none => 0#2
  | some .encrypt => 1#2
  | some .decrypt => 2#2

/-- The number of a strategy in C.STRAT and G.STRAT (R36, R46). -/
def stratCode (s : Strategy) : BitVec 1 := BitVec.ofBool s.bit

/-- The status byte (30_encoding.md R95, 60_exceptions.md R200). -/
def statusCode : Status → BitVec 8
  | .ok => 0x00#8
  | .validationError => 0x01#8
  | .authenticationFailure => 0x02#8

/-- The sub-code byte (60_exceptions.md R201); 0x00 where there is none (30_encoding.md R95). -/
def subCode : Option SubCode → BitVec 8
  | none => 0x00#8
  | some .badOpcode => 0x01#8
  | some .reservedBits => 0x02#8
  | some .badOperands => 0x03#8
  | some .badKeyLength => 0x04#8
  | some .badIvLength => 0x05#8
  | some .badAadLength => 0x06#8
  | some .badDataLength => 0x07#8
  | some .badTagLength => 0x08#8
  | some .outOfSequence => 0x09#8
  | some .aadAlreadySet => 0x0A#8
  | some .directionMixed => 0x0B#8
  | some .ghNotInitialized => 0x0C#8

/-! ## Sequence checks -/

/-- The columns of the phase table (R170). -/
inductive GcmCommand where
  | init
  | aad
  | enc
  | dec
  | tag
  | verifyDec
  | abort
  deriving DecidableEq, Repr

/-- Entering or staying in the cipher phase with direction `d` (R170, rows INITIALIZED, AAD_PHASE and CIPHER_PHASE). -/
def cipherSequence (d : Direction) (ph : Phase) (dir : Option Direction) : Except SubCode Phase :=
  match ph with
  | .uninitialized => .error .outOfSequence
  | .initialized => .ok .cipherPhase
  | .aadPhase => .ok .cipherPhase
  | .cipherPhase => if dir = some d then .ok .cipherPhase else .error .directionMixed
  | .finalized => .error .outOfSequence

/-- The phase table (R170): the phase after the command succeeds, or the sub-code it raises. -/
def gcmSequence (cmd : GcmCommand) (ph : Phase) (dir : Option Direction) : Except SubCode Phase :=
  match cmd with
  | .init =>
    match ph with
    | .uninitialized => .ok .initialized
    | .initialized => .error .outOfSequence
    | .aadPhase => .error .outOfSequence
    | .cipherPhase => .error .outOfSequence
    | .finalized => .ok .initialized
  | .aad =>
    match ph with
    | .uninitialized => .error .outOfSequence
    | .initialized => .ok .aadPhase
    | .aadPhase => .error .aadAlreadySet
    | .cipherPhase => .error .outOfSequence
    | .finalized => .error .outOfSequence
  | .enc => cipherSequence .encrypt ph dir
  | .dec => cipherSequence .decrypt ph dir
  | .tag =>
    match ph with
    | .uninitialized => .error .outOfSequence
    | .initialized => .error .outOfSequence
    | .aadPhase => .error .outOfSequence
    | .cipherPhase => .ok .finalized
    | .finalized => .error .outOfSequence
  | .verifyDec =>
    match ph with
    | .uninitialized => .ok .finalized
    | .initialized => .error .outOfSequence
    | .aadPhase => .error .outOfSequence
    | .cipherPhase => .error .outOfSequence
    | .finalized => .ok .finalized
  | .abort => .ok .uninitialized

/-- The sub-code a sequence check raises, or `none`. -/
def failureOf (r : Except SubCode Phase) : Option SubCode :=
  match r with
  | .ok _ => none
  | .error sub => some sub

/-- The sequence check of a GCM command in a context (R170). -/
def gcmSequenceCheck (cmd : GcmCommand) (c : GcmContext) : Option SubCode :=
  failureOf (gcmSequence cmd c.phase c.dir)

/-- The sequence check of GH_UPDATE, GH_FINAL and GH_RESET (10_state.md R45). -/
def ghSequenceCheck (g : GhashContext) : Option SubCode :=
  if g.valid = true then none else some .ghNotInitialized

end Sys2Proof.Machine
end

