-- ==== Sys2Proof/Machine/Ops.lean ====
section
/-! DEFINITION. The named operations on the state: writing a context, completing a command with a response, raising a
ValidationError, and the check order shared by every command (00_scope.md R24, R25; 60_exceptions.md R202, R203, R205). The
core has no memory to read or write (20_memory.md R60), no trap entry and no return from one (60_exceptions.md R207, R208):
raising a ValidationError stands where a processor takes an exception. -/

namespace Sys2Proof.Machine

/-- `C.F <- v` for the whole GCM context (00_scope.md R24). -/
def State.setC (c : GcmContext) (s : State) : State := { s with c := c }

/-- `G.F <- v` for the whole GHASH context (00_scope.md R24). -/
def State.setG (g : GhashContext) (s : State) : State := { s with g := g }

/-- What the host has sent beyond the event now taken. -/
def State.setPending (es : List HostEvent) (s : State) : State := { s with pending := es }

/-- `respond`: the command ends and its response is returned to the host (00_scope.md R25, 60_exceptions.md R206). -/
def State.respond (r : Response) (s : State) : State := { s with responses := s.responses ++ [r] }

/-- The response (OK, 0x00, out) (60_exceptions.md R200). -/
def okResponse (out : Bytes) : Response := ⟨.ok, none, out⟩

/-- The response (VALIDATION_ERROR, sub, empty) (60_exceptions.md R202). -/
def validationResponse (sub : SubCode) : Response := ⟨.validationError, some sub, []⟩

/-- The response (AUTHENTICATION_FAILURE, 0x00, zeros(n)) (60_exceptions.md R203). -/
def authFailureResponse (n : Nat) : Response := ⟨.authenticationFailure, none, zeros n⟩

/-- `raise ValidationError(sub)`: no state is written and the response is (VALIDATION_ERROR, sub, empty) (00_scope.md R25,
60_exceptions.md R202). -/
def State.raiseValidation (sub : SubCode) (s : State) : State := s.respond (validationResponse sub)

/-- The first check that fails (60_exceptions.md R205). -/
def firstFailure (checks : List (Option SubCode)) : Option SubCode := checks.findSome? id

/-- A command with its checks in order: the first failing check decides the response, and only then comes the effect
(60_exceptions.md R205 steps 4 to 6). -/
def checked (checks : List (Option SubCode)) (effect : State → State) (s : State) :
    Host.Outcome State Fault Refusal :=
  .next (match firstFailure checks with
    | some sub => s.raiseValidation sub
    | none => effect s)

/-- The reset event: both contexts take their reset values, and no response is returned (70_reset_and_hazards.md R230). -/
def State.resetEvent (s : State) : State := (s.setC GcmContext.reset).setG GhashContext.reset

end Sys2Proof.Machine
end

