-- ==== Sys2Proof/Machine/Field.lean ====
section
/-! DEFINITION. The GF(2^128) multiplier (40_gf128.md). -/

namespace Sys2Proof.Machine

/-- `B.bit(i)`: bit 0 is the most significant bit of byte 0 (00_scope.md R20). -/
def blockBit (b : Block) (i : Nat) : Bool := b.getMsbD i

/-- The reduction constant `R = 0xE1 ‖ zeros(15)` (R111). -/
def reductionR : Block := 0xE1#8 ++ 0#120

/-- One shift of V: right by one bit, with R added where a 1-bit is shifted out (R112). -/
def shiftReduce (v : Block) : Block :=
  if blockBit v 127 = true then (v >>> 1) ^^^ reductionR else v >>> 1

/-- One round of the multiplier on the pair (Z, V) (R112). -/
def gfmulRound (x : Block) (zv : Block × Block) (i : Nat) : Block × Block :=
  (if blockBit x i = true then zv.1 ^^^ zv.2 else zv.1, shiftReduce zv.2)

/-- `gfmul(X, Y)` (R112): 128 rounds, the most significant bit of X first. -/
def gfmul (x y : Block) : Block := ((List.range 128).foldl (gfmulRound x) (0, y)).1

/-- ONE = `0x80 ‖ zeros(15)`, the one of the field (R110, R113). -/
def fieldOne : Block := 0x80#8 ++ 0#120

end Sys2Proof.Machine
end

