-- ==== Sys2Proof/Machine/Hash.lean ====
section
/-! DEFINITION. The functions both GHASH accumulators share (41_ghash.md sections 1 and 2): the precomputed table, the
multiply-by-key unit, and the hash itself. -/

namespace Sys2Proof.Machine

/-! ## The precomputed table (R123, R124) -/

/-- The contents of a table in the reference construction: 32 nibble positions of 16 entries (R124). -/
abbrev TableData := List (List Block)

/-- The block that holds nibble `v` at nibble position `p` and zeros elsewhere (R124). -/
def nibbleBlock (p v : Nat) : Block := BitVec.ofNat 128 (v * 2 ^ (4 * (31 - p)))

/-- `build(H)` (R124). -/
def buildTable (h : Block) : TableData :=
  (List.range 32).map (fun p => (List.range 16).map (fun v => gfmul (nibbleBlock p v) h))

/-- The nibble of a block at position `p` (R124). -/
def nibbleAt (x : Block) (p : Nat) : Nat := x.toNat / 2 ^ (4 * (31 - p)) % 16

/-- `T[p][v]` (R124). -/
def tableEntry (t : TableData) (p v : Nat) : Block := (t.getD p []).getD v 0

/-- `tmul(X, T)`: lookups and XORs only (R123, R124). -/
def tmul (x : Block) (t : TableData) : Block :=
  (List.range 32).foldl (fun z p => z ^^^ tableEntry t p (nibbleAt x p)) 0

/-- The table a strategy needs for a key: VALID(build(H)) for TABLE, INVALID for REFERENCE (R127, 42_gcm.md R154). -/
def tableFor (s : Strategy) (h : Block) : Table :=
  match s with
  | .reference => .invalid
  | .table => .valid h

/-! ## The accumulator -/

/-- `mulH(s, X, H, T)`, the multiply-by-key unit (R126). DESIGN CHOICE (log entry 8): TABLE with an INVALID table, which no
run reaches, multiplies by the reference path. -/
def mulH (s : Strategy) (x h : Block) (t : Table) : Block :=
  match s with
  | .reference => gfmul x h
  | .table =>
    match t with
    | .valid k => tmul x (buildTable k)
    | .invalid => gfmul x h

/-- Absorb one block, zero-padded if short (R120, 20_memory.md R68). -/
def absorb (s : Strategy) (h : Block) (t : Table) (y : Block) (b : Bytes) : Block :=
  mulH s (y ^^^ pad16 b) h t

/-- `ghash_update(s, Y, H, T, D)` (R120). -/
def ghashUpdate (s : Strategy) (y h : Block) (t : Table) (d : Bytes) : Block :=
  (blocks d).foldl (absorb s h t) y

/-- `len_block(a, c)` for byte counts (R121). DESIGN CHOICE (log entry 14): a count past the bounds of R15, which no run
reaches, keeps its low 64 bits. -/
def lenBlock (a c : Nat) : Block := BitVec.ofNat 64 (8 * a) ++ BitVec.ofNat 64 (8 * c)

/-- `GHASH(s, H, T, A, C)` from a zero accumulator (R122). -/
def ghash (s : Strategy) (h : Block) (t : Table) (a c : Bytes) : Block :=
  ghashUpdate s (ghashUpdate s (ghashUpdate s 0 h t a) h t c) h t (lenBlock a.length c.length).toBytes

end Sys2Proof.Machine
end

