-- ==== Sys2Proof/Machine/Session.lean ====
section
/-! DEFINITION. The helper functions of the GCM orchestrator (42_gcm.md section 1), on the GCM context. Each takes the
platform (cipher and FIRST_COUNTER) as an argument, so that it can be read, and tested, for any platform. -/

namespace Sys2Proof.Machine

/-- `inc32(B)`: add 1 modulo 2^32 to the counter field, bytes 12 to 15; bytes 0 to 11 stay (R150, 20_memory.md R65). -/
def inc32 (b : Block) : Block := b.extractLsb' 32 96 ++ (b.extractLsb' 0 32 + 1#32)

/-- The second block string of the GHASH path of J0: `zeros(8) ‖ BE_8(8·|IV|)` (R151). -/
def ivLengthBlock (n : Nat) : Bytes := zeros 8 ++ beBytes 8 (8 * n)

/-- `derive_J0(s, H, T, IV)` (R151). -/
def deriveJ0 (s : Strategy) (h : Block) (t : Table) (iv : Bytes) : Block :=
  if iv.length = Config.fastIvBytes then Block.ofBytes (iv ++ [0x00#8, 0x00#8, 0x00#8, 0x01#8])
  else ghashUpdate s (ghashUpdate s 0 h t iv) h t (ivLengthBlock iv.length)

/-- The counter block a session starts with (R152, 00_scope.md R16). -/
def firstCounterBlock (p : Platform) (j0 : Block) : Block :=
  match p.firstCounter with
  | .inc32J0 => inc32 j0
  | .j0 => j0

/-- `session_init(s, K, IV)` (R154): it writes every field of the context, so no earlier context is an argument. -/
def sessionInit (p : Platform) (s : Strategy) (k iv : Bytes) : GcmContext :=
  let key := Key.ofBytes k
  let h := p.cipher key 0
  let t := tableFor s h
  let j0 := deriveJ0 s h t iv
  { phase := .initialized, dir := none, strat := s, key := key, h := h, j0 := j0,
    ctr := firstCounterBlock p j0, y := 0, tbl := t, aadLen := 0, cLen := 0 }

/-- `session_aad(A)` (R154). -/
def sessionAad (a : Bytes) (c : GcmContext) : GcmContext :=
  { c with
    y := ghashUpdate c.strat c.y c.h c.tbl a
    aadLen := BitVec.ofNat 64 a.length
    phase := .aadPhase }

/-- C.Y absorbs one block of ciphertext (R153). -/
def GcmContext.absorbBlock (b : Bytes) (c : GcmContext) : GcmContext :=
  { c with y := absorb c.strat c.h c.tbl c.y b }

/-- One block of the counter-mode pass (R153): the context after it and the output bytes. Decrypting, the ciphertext is
absorbed before the output is made (20_memory.md R75). -/
def cryptBlock (p : Platform) (d : Direction) (blk : Bytes) (c : GcmContext) : GcmContext × Bytes :=
  match d with
  | .encrypt =>
    let o := xorKeystream blk (p.cipher c.key c.ctr)
    ({ c with ctr := inc32 c.ctr }.absorbBlock o, o)
  | .decrypt =>
    let c := c.absorbBlock blk
    let o := xorKeystream blk (p.cipher c.key c.ctr)
    ({ c with ctr := inc32 c.ctr }, o)

/-- The blocks of the pass in order, their outputs joined (R153). -/
def cryptBlocks (p : Platform) (d : Direction) : List Bytes → GcmContext → GcmContext × Bytes
  | [], c => (c, [])
  | blk :: rest, c =>
    let r := cryptBlock p d blk c
    let q := cryptBlocks p d rest r.1
    (q.1, r.2 ++ q.2)

/-- `session_crypt(d, D)` (R153): the context after it and the output. -/
def sessionCrypt (p : Platform) (d : Direction) (data : Bytes) (c : GcmContext) : GcmContext × Bytes :=
  let r := cryptBlocks p d (blocks data) c
  ({ r.1 with
      cLen := BitVec.ofNat 64 (c.cLen.toNat + data.length)
      dir := some d
      phase := .cipherPhase },
    r.2)

/-- `session_tag()` (R154): the context after it and the tag. -/
def sessionTag (p : Platform) (c : GcmContext) : GcmContext × Block :=
  let y := mulH c.strat (c.y ^^^ lenBlock c.aadLen.toNat c.cLen.toNat) c.h c.tbl
  ({ c with y := y, phase := .finalized }, p.cipher c.key c.j0 ^^^ y)

end Sys2Proof.Machine
end

