-- ==== Sys2Proof/Machine/Gcm.lean ====
section
/-! DEFINITION. The meanings of the commands on the GCM context (42_gcm.md section 3). Each command is written for any
platform; the command of the modelled core is that one at `Config.platform`. -/

namespace Sys2Proof.Machine

/-- GCM_INIT on a platform (R155). -/
def gcmInitOn (p : Platform) (st : Strategy) (k iv : Bytes) (s : State) : Host.Outcome State Fault Refusal :=
  checked [gcmSequenceCheck .init s.c, keyLengthCheck k, ivLengthCheck iv]
    (fun s => (s.setC (sessionInit p st k iv)).respond (okResponse []))
    s

/-- GCM_AAD (R156); it calls no cipher, so it is the same on every platform. -/
def gcmAadOn (a : Bytes) (s : State) : Host.Outcome State Fault Refusal :=
  checked [gcmSequenceCheck .aad s.c, aadLengthCheck a]
    (fun s => (s.setC (sessionAad a s.c)).respond (okResponse []))
    s

/-- GCM_ENC on a platform (R157). -/
def gcmEncOn (p : Platform) (d : Bytes) (s : State) : Host.Outcome State Fault Refusal :=
  checked [gcmSequenceCheck .enc s.c, dataLengthCheck (s.c.cLen.toNat + d.length)]
    (fun s => (s.setC (sessionCrypt p .encrypt d s.c).1).respond (okResponse (sessionCrypt p .encrypt d s.c).2))
    s

/-- GCM_DEC on a platform (R158). -/
def gcmDecOn (p : Platform) (d : Bytes) (s : State) : Host.Outcome State Fault Refusal :=
  checked [gcmSequenceCheck .dec s.c, dataLengthCheck (s.c.cLen.toNat + d.length)]
    (fun s => (s.setC (sessionCrypt p .decrypt d s.c).1).respond (okResponse (sessionCrypt p .decrypt d s.c).2))
    s

/-- GCM_TAG on a platform (R159). -/
def gcmTagOn (p : Platform) (s : State) : Host.Outcome State Fault Refusal :=
  checked [gcmSequenceCheck .tag s.c]
    (fun s => (s.setC (sessionTag p s.c).1).respond (okResponse (sessionTag p s.c).2.toBytes))
    s

/-- The context and the response of GCM_VERIFY_DEC once its checks have passed (R160): start, AAD, decrypt, tag, compare.
The plaintext stays inside unless the tags agree. -/
def verifyDecEffect (p : Platform) (st : Strategy) (k iv a c t : Bytes) : GcmContext × Response :=
  let dec := sessionCrypt p .decrypt c (sessionAad a (sessionInit p st k iv))
  let fin := sessionTag p dec.1
  (fin.1, if tagsEqual fin.2.toBytes t = true then okResponse dec.2 else authFailureResponse c.length)

/-- GCM_VERIFY_DEC on a platform (R160). -/
def gcmVerifyDecOn (p : Platform) (st : Strategy) (k iv a c t : Bytes) (s : State) :
    Host.Outcome State Fault Refusal :=
  checked
    [gcmSequenceCheck .verifyDec s.c, keyLengthCheck k, ivLengthCheck iv, aadLengthCheck a,
      dataLengthCheck c.length, tagLengthCheck t]
    (fun s => (s.setC (verifyDecEffect p st k iv a c t).1).respond (verifyDecEffect p st k iv a c t).2)
    s

/-- The context GCM_ABORT leaves (R162). -/
def abortedContext : GcmContext where
  phase  := .uninitialized
  dir    := none
  strat  := .reference
  key    := 0
  h      := 0
  j0     := 0
  ctr    := 0
  y      := 0
  tbl    := .invalid
  aadLen := 0
  cLen   := 0

/-- GCM_INIT: start a session (R155). -/
def execGcmInit (st : Strategy) (k iv : Bytes) (s : State) : Host.Outcome State Fault Refusal :=
  gcmInitOn Config.platform st k iv s

/-- GCM_AAD: authenticate associated data (R156). -/
def execGcmAad (a : Bytes) (s : State) : Host.Outcome State Fault Refusal := gcmAadOn a s

/-- GCM_ENC: encrypt plaintext (R157). -/
def execGcmEnc (p : Bytes) (s : State) : Host.Outcome State Fault Refusal := gcmEncOn Config.platform p s

/-- GCM_DEC: decrypt ciphertext without verifying (R158). -/
def execGcmDec (c : Bytes) (s : State) : Host.Outcome State Fault Refusal := gcmDecOn Config.platform c s

/-- GCM_TAG: produce the tag (R159). -/
def execGcmTag (s : State) : Host.Outcome State Fault Refusal := gcmTagOn Config.platform s

/-- GCM_VERIFY_DEC: decrypt and verify in one command (R160). -/
def execGcmVerifyDec (st : Strategy) (k iv a c t : Bytes) (s : State) : Host.Outcome State Fault Refusal :=
  gcmVerifyDecOn Config.platform st k iv a c t s

/-- GCM_ABORT: end the session and clear the context, in every phase (R162). -/
def execGcmAbort (s : State) : Host.Outcome State Fault Refusal :=
  checked [gcmSequenceCheck .abort s.c] (fun s => (s.setC abortedContext).respond (okResponse [])) s

end Sys2Proof.Machine
end

