-- ==== Sys2Proof/Machine/Gf.lean ====
section
/-! DEFINITION. The meaning of GF_MUL (40_gf128.md section 2). -/

namespace Sys2Proof.Machine

/-- GF_MUL (R114): the product of two field elements; no field of either context is read or written. -/
def execGfMul (x y : Block) (s : State) : Host.Outcome State Fault Refusal :=
  checked [] (fun s => s.respond (okResponse (gfmul x y).toBytes)) s

end Sys2Proof.Machine
end

