-- ==== Sys2Proof/Machine/Ghash.lean ====
section
/-! DEFINITION. The meanings of the commands on the GHASH context (41_ghash.md section 3). -/

namespace Sys2Proof.Machine

/-- GH_INIT (R127): set the key, zero the accumulator, choose the strategy. -/
def execGhInit (st : Strategy) (h : Block) (s : State) : Host.Outcome State Fault Refusal :=
  checked []
    (fun s => (s.setG { valid := true, strat := st, h := h, y := 0, tbl := tableFor st h }).respond (okResponse []))
    s

/-- GH_UPDATE (R128): absorb data. -/
def execGhUpdate (d : Bytes) (s : State) : Host.Outcome State Fault Refusal :=
  checked [ghSequenceCheck s.g]
    (fun s => (s.setG { s.g with y := ghashUpdate s.g.strat s.g.y s.g.h s.g.tbl d }).respond (okResponse []))
    s

/-- GH_FINAL (R129): return the accumulator. -/
def execGhFinal (s : State) : Host.Outcome State Fault Refusal :=
  checked [ghSequenceCheck s.g] (fun s => s.respond (okResponse s.g.y.toBytes)) s

/-- GH_RESET (R130): zero the accumulator, keep key, strategy and table. -/
def execGhReset (s : State) : Host.Outcome State Fault Refusal :=
  checked [ghSequenceCheck s.g] (fun s => (s.setG { s.g with y := 0 }).respond (okResponse [])) s

/-- GH_ONESHOT (R131): the whole hash in one command; no field of either context is read or written. -/
def execGhOneshot (st : Strategy) (h : Block) (a c : Bytes) (s : State) : Host.Outcome State Fault Refusal :=
  checked [aadLengthCheck a, dataLengthCheck c.length]
    (fun s => s.respond (okResponse (ghash st h (tableFor st h) a c).toBytes))
    s

end Sys2Proof.Machine
end

