-- ==== Sys2Proof/Machine/Dispatch.lean ====
section
/-! DEFINITION. One arm per command of the command set (30_encoding.md R98). -/

namespace Sys2Proof.Machine

def exec (i : Instr) (s : State) : Host.Outcome State Fault Refusal :=
  match i with
  | .gfMul x y => Sys2Proof.Machine.execGfMul x y s
  | .ghInit st h => Sys2Proof.Machine.execGhInit st h s
  | .ghUpdate d => Sys2Proof.Machine.execGhUpdate d s
  | .ghFinal => Sys2Proof.Machine.execGhFinal s
  | .ghReset => Sys2Proof.Machine.execGhReset s
  | .ghOneshot st h a c => Sys2Proof.Machine.execGhOneshot st h a c s
  | .gcmInit st k iv => Sys2Proof.Machine.execGcmInit st k iv s
  | .gcmAad a => Sys2Proof.Machine.execGcmAad a s
  | .gcmEnc p => Sys2Proof.Machine.execGcmEnc p s
  | .gcmDec c => Sys2Proof.Machine.execGcmDec c s
  | .gcmTag => Sys2Proof.Machine.execGcmTag s
  | .gcmVerifyDec st k iv a c t => Sys2Proof.Machine.execGcmVerifyDec st k iv a c t s
  | .gcmAbort => Sys2Proof.Machine.execGcmAbort s

end Sys2Proof.Machine
end

