-- ==== Sys2Proof/Machine/Transport.lean ====
section
/-! DEFINITION. The host's side of an instance: taking one host event (60_exceptions.md R216), and commands and responses
over a byte stream (30_encoding.md R96, R97). -/

namespace Sys2Proof.Machine

/-- A command is decoded and run, or refused with the ValidationError the decoder names (30_encoding.md R103,
60_exceptions.md R202, R205). -/
def runCommand (cmd : Command) (s : State) : Host.Outcome State Fault Refusal :=
  match decode cmd with
  | .error sub => .next (s.raiseValidation sub)
  | .ok i => exec i s

/-- One host event: a command, or the reset event (60_exceptions.md R216, 70_reset_and_hazards.md R230). A reset stands
between two commands, never inside one (DEDUCED, log entry 7). -/
def handleEvent (e : HostEvent) (s : State) : Host.Outcome State Fault Refusal :=
  match e with
  | .reset => .next s.resetEvent
  | .command cmd => runCommand cmd s

/-- The host has `e` as the next thing it sends. -/
def State.sendNext (e : HostEvent) (s : State) : State := s.setPending (e :: s.pending)

/-- The byte frame of a response `BE_1(status) ‖ BE_1(sub) ‖ BE_8(|out|) ‖ out` (R97). -/
def responseFrame (r : Response) : Bytes :=
  [statusCode r.status, subCode r.sub] ++ beBytes 8 r.out.length ++ r.out

/-- A command frame arrives from a byte stream: the command joins the end of what the host has sent, and the rest of the
stream is given back; `none` while the frame is not whole (R96, R102). -/
def State.receiveFrame (b : Bytes) (s : State) : Option (State × Bytes) :=
  match Command.parse b with
  | none => none
  | some (cmd, rest) => some (s.setPending (s.pending ++ [.command cmd]), rest)

end Sys2Proof.Machine
end

