-- ==== Sys2Proof/Machine/Step.lean ====
section
/-! DEFINITION. One step of an instance: the next thing the host has sent is taken and answered (10_state.md R33,
20_memory.md R73). -/

namespace Sys2Proof.Machine

/-- One step. With nothing pending the instance is idle and holds its state (60_exceptions.md R215, 70_reset_and_hazards.md
R232), which the model shows as a step that changes nothing (DESIGN CHOICE, log entry 1);
otherwise the first pending event is taken. -/
def step (s : State) : Host.Outcome State Fault Refusal :=
  match s.pending with
  | [] => .next s
  | e :: rest => handleEvent e (s.setPending rest)

/-- `s` with the command of an opcode-table word, its operands zeros, as the next thing the host sends (log
entries 9 and 10). -/
def State.withFetchWord (s : State) (nbits w : Nat) : State :=
  s.sendNext (.command (tableCommand nbits w))

end Sys2Proof.Machine
end

