-- ==== Sys2Proof/Machine/Asm.lean ====
section
/-! DEFINITION. The assembler syntax (30_encoding.md R104), on lists of characters: a command is a mnemonic with an
optional strategy suffix, then operands separated by commas, each a hex string or an ASCII string. How
spaces, the case of hex digits and ASCII are read is DESIGN CHOICE (log entry 16). -/

namespace Sys2Proof.Machine

/-- The mnemonic of an opcode (R98). -/
def mnemonic : Opcode → String
  | .gfMul => "GF_MUL"
  | .ghInit => "GH_INIT"
  | .ghUpdate => "GH_UPDATE"
  | .ghFinal => "GH_FINAL"
  | .ghReset => "GH_RESET"
  | .ghOneshot => "GH_ONESHOT"
  | .gcmInit => "GCM_INIT"
  | .gcmAad => "GCM_AAD"
  | .gcmEnc => "GCM_ENC"
  | .gcmDec => "GCM_DEC"
  | .gcmTag => "GCM_TAG"
  | .gcmVerifyDec => "GCM_VERIFY_DEC"
  | .gcmAbort => "GCM_ABORT"

/-! ## Reading -/

/-- The value of a hex digit, of either case. -/
def hexValue (c : Char) : Option Nat :=
  if '0' ≤ c ∧ c ≤ '9' then some (c.toNat - '0'.toNat)
  else if 'a' ≤ c ∧ c ≤ 'f' then some (c.toNat - 'a'.toNat + 10)
  else if 'A' ≤ c ∧ c ≤ 'F' then some (c.toNat - 'A'.toNat + 10)
  else none

/-- Bytes from pairs of hex digits, and what follows them. -/
def readHex : List Char → Bytes × List Char
  | a :: b :: rest =>
    match hexValue a, hexValue b with
    | some x, some y =>
      let r := readHex rest
      (BitVec.ofNat 8 (16 * x + y) :: r.1, r.2)
    | _, _ => ([], a :: b :: rest)
  | cs => ([], cs)

/-- The bytes of an ASCII string up to its closing quote, and what follows it. -/
def readQuoted : List Char → Option (Bytes × List Char)
  | [] => none
  | c :: rest =>
    if c = '"' then some ([], rest)
    else if c.toNat < 128 then
      match readQuoted rest with
      | none => none
      | some (b, r) => some (BitVec.ofNat 8 c.toNat :: b, r)
    else none

/-- One operand: `0x` and an even number of hex digits, or an ASCII string in double quotes. -/
def readOperand (cs : List Char) : Option (Bytes × List Char) :=
  match cs with
  | '0' :: 'x' :: rest => some (readHex rest)
  | '"' :: rest => readQuoted rest
  | _ => none

/-- What follows leading spaces. -/
def skipSpaces (cs : List Char) : List Char := cs.dropWhile (· == ' ')

/-- Operands separated by commas, to the end of the text; the number bounds how many. -/
def readOperands : Nat → List Char → Option (List Bytes)
  | 0, _ => none
  | n + 1, cs =>
    match readOperand cs with
    | none => none
    | some (b, r) =>
      match skipSpaces r with
      | [] => some [b]
      | ',' :: r' =>
        match readOperands n (skipSpaces r') with
        | none => none
        | some bs => some (b :: bs)
      | _ => none

/-- The opcode and strategy a name gives: `.T` is S = 1, `.R` or no suffix S = 0, and a suffix stands only on an opcode
with a strategy. -/
def readName (name : List Char) : Option (Opcode × Strategy) :=
  match Opcode.all.find? (fun o => (mnemonic o).toList == name) with
  | some o => some (o, .reference)
  | none =>
    match Opcode.all.find? (fun o => o.usesStrategy && ((mnemonic o).toList ++ ['.', 'R'] == name)) with
    | some o => some (o, .reference)
    | none =>
      match Opcode.all.find? (fun o => o.usesStrategy && ((mnemonic o).toList ++ ['.', 'T'] == name)) with
      | some o => some (o, .table)
      | none => none

/-- Assemble one line. The operand count and lengths are not checked: that is the core's to do (R94). -/
def assemble (cs : List Char) : Option Command :=
  match readName (cs.takeWhile (· != ' ')) with
  | none => none
  | some (o, s) =>
    let rest := skipSpaces (cs.dropWhile (· != ' '))
    match rest with
    | [] => some ⟨commandWord o s, []⟩
    | _ =>
      match readOperands rest.length rest with
      | none => none
      | some ops => some ⟨commandWord o s, ops⟩

/-! ## Writing -/

/-- The hex digit of a value below 16. -/
def hexDigit (n : Nat) : Char :=
  if n < 10 then Char.ofNat ('0'.toNat + n) else Char.ofNat ('a'.toNat + (n - 10))

/-- An operand as a hex string. -/
def writeOperand (b : Bytes) : List Char :=
  '0' :: 'x' :: b.flatMap (fun x => [hexDigit (x.toNat / 16), hexDigit (x.toNat % 16)])

/-- Operands separated by a comma and a space. -/
def writeOperands : List Bytes → List Char
  | [] => []
  | [b] => writeOperand b
  | b :: bs => writeOperand b ++ [',', ' '] ++ writeOperands bs

/-- The text of a command, with the suffix `.T` where S = 1 and none where S = 0. -/
def disassemble (i : Instr) : List Char :=
  let name := (mnemonic i.opcode).toList ++ (if i.strategy = .table then ['.', 'T'] else [])
  match i.operands with
  | [] => name
  | ops => name ++ [' '] ++ writeOperands ops

end Sys2Proof.Machine
end

