-- ==== Sys2Proof/Machine/Instances.lean ====
section
/-! DEFINITION. Several independent instances beside one another (00_scope.md R17, 60_exceptions.md R213): each has its own
contexts and its own command stream, and a step is a step of one of them. -/

namespace Sys2Proof.Machine

/-- N_INSTANCES instances, by position (R17). -/
abbrev Instances := List State

/-- Every instance right after reset (R213). -/
def Instances.reset (n : Nat) : Instances := List.replicate n State.reset

/-- A step of the instance at position `k`; where there is none, nothing happens. DESIGN CHOICE (log entry 18). -/
def Instances.step (k : Nat) (xs : Instances) : Host.Outcome Instances Fault Refusal :=
  match xs[k]? with
  | none => .next xs
  | some s =>
    match Machine.step s with
    | .next t => .next (xs.set k t)
    | .fault r => .fault r
    | .refused r => .refused r

end Sys2Proof.Machine
end

