-- ==== Sys2Proof/Machine/Run.lean ====
section
/-! DEFINITION. A run of one instance from reset (70_reset_and_hazards.md R235, R247), with a record of the sessions the
host has started in it: what its duties are about. The record is no state of the core; nothing the core does reads it. -/

namespace Sys2Proof.Machine

/-- The texts of a session that GHASH absorbs: the AAD, and the ciphertext chunk by chunk, each chunk padded by itself
(10_state.md R51 (d), R53). -/
structure SessionText where
  aad    : Bytes
  chunks : List Bytes
  deriving DecidableEq, Repr

/-- A session before its first text. -/
def SessionText.empty : SessionText := ⟨[], []⟩

/-- The texts after a command and its response: GCM_AAD gives the AAD, GCM_ENC adds its output and GCM_DEC its operand
(42_gcm.md R153), GCM_VERIFY_DEC gives both texts at once (R160), GCM_INIT and GCM_ABORT leave none; a refused command and
a command on no session leave them. -/
def textAfter (i : Instr) (r : Response) (x : SessionText) : SessionText :=
  if r.status = .validationError then x
  else
    match i with
    | .gfMul _ _ => x
    | .ghInit _ _ => x
    | .ghUpdate _ => x
    | .ghFinal => x
    | .ghReset => x
    | .ghOneshot _ _ _ _ => x
    | .gcmInit _ _ _ => .empty
    | .gcmAad a => { x with aad := a }
    | .gcmEnc _ => { x with chunks := x.chunks ++ [r.out] }
    | .gcmDec c => { x with chunks := x.chunks ++ [c] }
    | .gcmTag => x
    | .gcmVerifyDec _ _ _ a c _ => ⟨a, [c]⟩
    | .gcmAbort => .empty

/-- One session of a run: its key and IV, its texts, whether its tag was computed, and whether it is a GCM_VERIFY_DEC that
answered AUTHENTICATION_FAILURE. -/
structure SessionRecord where
  key    : Bytes
  iv     : Bytes
  text   : SessionText
  tagged : Bool
  failed : Bool
  deriving DecidableEq, Repr

/-- The sessions after a command and its response, the newest first: GCM_INIT and GCM_VERIFY_DEC start one, the other
commands of a session continue the newest, and a refused command does neither (42_gcm.md R170). -/
def recordCommand (i : Instr) (r : Response) (log : List SessionRecord) : List SessionRecord :=
  if r.status = .validationError then log
  else
    match i with
    | .gfMul _ _ => log
    | .ghInit _ _ => log
    | .ghUpdate _ => log
    | .ghFinal => log
    | .ghReset => log
    | .ghOneshot _ _ _ _ => log
    | .gcmInit _ k iv => ⟨k, iv, .empty, false, false⟩ :: log
    | .gcmAad _ => log.modifyHead (fun x => { x with text := textAfter i r x.text })
    | .gcmEnc _ => log.modifyHead (fun x => { x with text := textAfter i r x.text })
    | .gcmDec _ => log.modifyHead (fun x => { x with text := textAfter i r x.text })
    | .gcmTag => log.modifyHead (fun x => { x with tagged := true })
    | .gcmVerifyDec _ k iv a c _ => ⟨k, iv, ⟨a, [c]⟩, true, decide (r.status = .authenticationFailure)⟩ :: log
    | .gcmAbort => log

/-- The sessions after a step from `s` to `t`: only a command that decodes can change them. -/
def recordStep (s t : State) (log : List SessionRecord) : List SessionRecord :=
  match s.pending with
  | [] => log
  | .reset :: _ => log
  | .command cmd :: _ =>
    match decode cmd, t.responses.getLast? with
    | .ok i, some r => recordCommand i r log
    | _, _ => log

/-- A run so far: the instance, and the sessions the host has started on it. -/
structure Run where
  state    : State
  sessions : List SessionRecord
  deriving DecidableEq, Repr

/-- The launch of a run: the reset state, no command in flight, and what the host will send (R235). -/
def Run.launch (es : List HostEvent) : Run := ⟨State.reset.setPending es, []⟩

/-- One step of a run. -/
def Run.advance (x : Run) : Run :=
  match step x.state with
  | .next t => ⟨t, recordStep x.state t x.sessions⟩
  | .fault _ => x
  | .refused _ => x

/-- Some steps of a run. -/
def Run.advanceBy : Nat → Run → Run
  | 0, x => x
  | n + 1, x => x.advance.advanceBy n

/-- The whole run of what a host sends to one instance: it ends when the last event has been taken (R247). -/
def runOf (es : List HostEvent) : Run := (Run.launch es).advanceBy es.length

/-- The observation of a run: the responses in order, and the final state of the instance (R247). -/
def observation (es : List HostEvent) : List Response × State := ((runOf es).state.responses, (runOf es).state)

end Sys2Proof.Machine
end

