-- ==== Sys2Proof/Machine/Seal.lean ====
section
/-! DEFINITION. The pseudo-command GCM_SEAL (30_encoding.md R105). -/

namespace Sys2Proof.Machine

/-- The four commands GCM_SEAL stands for (R105). -/
def sealCommands (st : Strategy) (k iv a p : Bytes) : List Instr :=
  [.gcmInit st k iv, .gcmAad a, .gcmEnc p, .gcmTag]

/-- The status of the newest response is OK. -/
def lastOk (s : State) : Bool :=
  match s.responses.getLast? with
  | none => false
  | some r => decide (r.status = .ok)

/-- Run commands in order, stopping at the first whose status is not OK (R105). -/
def runWhileOk : List Instr → State → Host.Outcome State Fault Refusal
  | [], s => .next s
  | i :: rest, s =>
    match exec i s with
    | .next t => if lastOk t = true then runWhileOk rest t else .next t
    | .fault r => .fault r
    | .refused r => .refused r

/-- GCM_SEAL K, IV, A, P (R105). -/
def gcmSeal (st : Strategy) (k iv a p : Bytes) (s : State) : Host.Outcome State Fault Refusal :=
  runWhileOk (sealCommands st k iv a p) s

end Sys2Proof.Machine
end

