-- ==== Sys2Proof/Safety.lean ====
section
/-! DEFINITION. The invariants of an instance (10_state.md R51) and the duties of its host (60_exceptions.md R216), in the
terms claims use. -/

namespace Sys2Proof.Machine

/-- What holds of the GCM context between commands: R51 (a), (c), (e), (f), the table of R42 and the bounds of R43 and
R44. -/
structure GcmContext.Inv (p : Platform) (c : GcmContext) : Prop where
  /-- R51 (a): H is the cipher of the zero block. -/
  hashKey : c.phase ≠ .uninitialized → c.h = p.cipher c.key 0
  /-- R51 (c): the upper 96 bits of the counter are those of J0. -/
  counterPrefix : c.phase ≠ .uninitialized → c.ctr.extractLsb' 32 96 = c.j0.extractLsb' 32 96
  /-- R51 (e): without a session every field holds its reset value. -/
  unused : c.phase = .uninitialized → c = GcmContext.reset
  /-- R51 (f): the direction is NONE exactly before the cipher phase. -/
  direction : c.dir = none ↔ c.phase = .uninitialized ∨ c.phase = .initialized ∨ c.phase = .aadPhase
  /-- R42: the table is VALID(build(H)) exactly in a session of the TABLE strategy. -/
  table : c.tbl = if c.strat = .table ∧ c.phase ≠ .uninitialized then .valid c.h else .invalid
  /-- R43. -/
  aadBound : c.aadLen.toNat ≤ Config.aadMaxBytes
  /-- R44. -/
  dataBound : c.cLen.toNat ≤ Config.cMaxBytes

/-- What holds of the GHASH context between commands: the table of R49, and reset values before the first GH_INIT (R45). -/
structure GhashContext.Inv (g : GhashContext) : Prop where
  unused : g.valid = false → g = GhashContext.reset
  table : g.tbl = if g.strat = .table ∧ g.valid = true then .valid g.h else .invalid

/-- The accumulator after the AAD and then the data chunks, each padded by itself (R51 (d), R53). -/
def absorbedData (c : GcmContext) (x : SessionText) : Block :=
  x.chunks.foldl (fun y d => ghashUpdate c.strat y c.h c.tbl d) (ghashUpdate c.strat 0 c.h c.tbl x.aad)

/-- R51 (d), of the texts named: C.Y has absorbed, in order, the padded AAD, the padded ciphertext, and in FINALIZED the
length block, and the length fields say how many bytes that was. Before the AAD and before the data there are none. -/
def GcmContext.Absorbed (c : GcmContext) (x : SessionText) : Prop :=
  x.aad.length = c.aadLen.toNat ∧ x.chunks.flatten.length = c.cLen.toNat ∧
    match c.phase with
    | .uninitialized => x = .empty ∧ c.y = 0
    | .initialized => x = .empty ∧ c.y = 0
    | .aadPhase => x.chunks = [] ∧ c.y = absorbedData c x
    | .cipherPhase => c.y = absorbedData c x
    | .finalized => c.y = ghashUpdate c.strat (absorbedData c x) c.h c.tbl
        (lenBlock c.aadLen.toNat c.cLen.toNat).toBytes

/-- The record of a run agrees with its instance: once a session has been started, the newest record holds the key and the
IV that C.KEY, C.H and C.J0 come from and the texts that C.Y has absorbed, and is tagged exactly in FINALIZED. -/
def Run.Recorded (x : Run) : Prop :=
  x.state.c.phase ≠ .uninitialized →
    ∃ (r : SessionRecord) (older : List SessionRecord), x.sessions = r :: older ∧
      r.key.length = Config.keyBytes ∧ 0 < r.iv.length ∧ r.iv.length ≤ Config.ivMaxBytes ∧
      x.state.c.key = Key.ofBytes r.key ∧ x.state.c.h = Config.platform.cipher x.state.c.key 0 ∧
      x.state.c.tbl = tableFor x.state.c.strat x.state.c.h ∧
      x.state.c.j0 = deriveJ0 x.state.c.strat x.state.c.h x.state.c.tbl r.iv ∧
      x.state.c.Absorbed r.text ∧ (r.tagged = true ↔ x.state.c.phase = .finalized)

/-- The invariant of an instance of the modelled core. -/
def State.Inv (s : State) : Prop := s.c.Inv Config.platform ∧ s.g.Inv

/-- A session is open: started, and not yet ended by a tag (42_gcm.md R170). -/
def GcmContext.inSession (c : GcmContext) : Prop :=
  c.phase = .initialized ∨ c.phase = .aadPhase ∨ c.phase = .cipherPhase

/-- How the words with an opcode number are refused for their form: a word outside the row raises RESERVED_BITS
(30_encoding.md R92), and on a word of the row an operand list that is not of the row's format raises BAD_OPERANDS (R94). -/
def FormErrors (opc : Nat) (words : List (BitVec 16)) (good : List Bytes → Prop) : Prop :=
  ∀ (cw : BitVec 16) (ops : List Bytes), cw.toNat % 256 = opc →
    (cw ∉ words → decode ⟨cw, ops⟩ = .error .reservedBits) ∧
    (cw ∈ words → ¬ good ops → decode ⟨cw, ops⟩ = .error .badOperands)

/-- An operand list has the count and the fixed lengths of a format (30_encoding.md R94). -/
def FormatFits (f : Format) (ops : List Bytes) : Prop :=
  match f with
  | .fNone => ops.length = 0
  | .fXY => ops.length = 2 ∧ ∀ op ∈ ops, op.length = 16
  | .fH => ops.length = 1 ∧ ∀ op ∈ ops, op.length = 16
  | .fD => ops.length = 1
  | .fHAC => ops.length = 3 ∧ ∀ op ∈ ops.head?, op.length = 16
  | .fKI => ops.length = 2
  | .fKIACT => ops.length = 5

/-- The responses a step or a command has added (60_exceptions.md R206). -/
def newResponses (s t : State) : List Response := t.responses.drop s.responses.length

/-- A command on the GCM context (30_encoding.md R98, rows 0x20 to 0x26). -/
def Instr.isGcm (i : Instr) : Prop := 0x20 ≤ i.opcode.code.toNat

/-- A command on the GHASH context (30_encoding.md R98, rows 0x10 to 0x14). -/
def Instr.isGh (i : Instr) : Prop := 0x10 ≤ i.opcode.code.toNat ∧ i.opcode.code.toNat ≤ 0x14

/-! ## The duties of the host, over the sessions of a run (60_exceptions.md R216, 70_reset_and_hazards.md R235) -/

/-- The ciphertext of a session, block by block: one counter block belongs to each, so with the key and the IV it fixes the
plaintext too (42_gcm.md R153). -/
def SessionRecord.blocks (x : SessionRecord) : List Bytes := x.text.chunks.flatMap Machine.blocks

/-- The session handles a message: it was given data, and it is no GCM_VERIFY_DEC that answered AUTHENTICATION_FAILURE,
which releases nothing. DESIGN CHOICE (log entry 19). -/
def SessionRecord.HasMessage (x : SessionRecord) : Prop := x.text.chunks ≠ [] ∧ x.failed = false

/-- What session `x` has handled is the message of `y`, whole if `x` computed its tag and otherwise a beginning of it.
DESIGN CHOICE (log entry 19). -/
def SessionRecord.PartOf (x y : SessionRecord) : Prop :=
  x.text.aad = y.text.aad ∧ x.blocks <+: y.blocks ∧ (x.tagged = true → x.blocks = y.blocks)

/-- A host duty (42_gcm.md R167; 93_implementation_defined.md I9): no key and IV pair is used for two messages. Sessions
that handle one message again, as sealing and then verifying it do, keep the duty. -/
def NonceUnique (sessions : List SessionRecord) : Prop :=
  sessions.Pairwise fun x y =>
    x.HasMessage → y.HasMessage → x.key = y.key → x.iv = y.iv → x.PartOf y ∨ y.PartOf x

/-- A host duty (70_reset_and_hazards.md R240): the data of a session takes at most 2^32 - 1 counter blocks. -/
def CounterDuty (sessions : List SessionRecord) : Prop :=
  ∀ x ∈ sessions, x.blocks.length ≤ 2 ^ 32 - 1

/-- The launch premise of a claim about runs, one event list for each instance (R235): each run starts in reset
(`Run.launch`), the cipher is fixed (`Config.platform`), and the sessions of all instances together keep the host's duties.
The other duties of R216 have no move that breaks them here (log entry 7). -/
def HostDuties (streams : List (List HostEvent)) : Prop :=
  NonceUnique (streams.flatMap fun es => (runOf es).sessions) ∧
    CounterDuty (streams.flatMap fun es => (runOf es).sessions)

end Sys2Proof.Machine
end

