-- ==== Sys2Proof/Certificates/Slice0/Obligations.lean ====
section
/-! DEFINITION. The statements for the provers. -/

open Sys2Proof Sys2Proof.Machine

/-! ## Encoding (30_encoding.md) -/

/-- R98: the word of every row, with operands of the row's format, decodes to the row's command. -/
def Obligations.OpcodeMapDecodes : Prop :=
  (∀ x y : Bytes, x.length = 16 → y.length = 16 →
    decode ⟨0x0001#16, [x, y]⟩ = .ok (.gfMul (Block.ofBytes x) (Block.ofBytes y))) ∧
  (∀ h : Bytes, h.length = 16 →
    decode ⟨0x0010#16, [h]⟩ = .ok (.ghInit .reference (Block.ofBytes h)) ∧
    decode ⟨0x0110#16, [h]⟩ = .ok (.ghInit .table (Block.ofBytes h))) ∧
  (∀ h a c : Bytes, h.length = 16 →
    decode ⟨0x0014#16, [h, a, c]⟩ = .ok (.ghOneshot .reference (Block.ofBytes h) a c) ∧
    decode ⟨0x0114#16, [h, a, c]⟩ = .ok (.ghOneshot .table (Block.ofBytes h) a c)) ∧
  (∀ d : Bytes,
    decode ⟨0x0011#16, [d]⟩ = .ok (.ghUpdate d) ∧ decode ⟨0x0021#16, [d]⟩ = .ok (.gcmAad d) ∧
    decode ⟨0x0022#16, [d]⟩ = .ok (.gcmEnc d) ∧ decode ⟨0x0023#16, [d]⟩ = .ok (.gcmDec d)) ∧
  (∀ k iv : Bytes,
    decode ⟨0x0020#16, [k, iv]⟩ = .ok (.gcmInit .reference k iv) ∧
    decode ⟨0x0120#16, [k, iv]⟩ = .ok (.gcmInit .table k iv)) ∧
  (∀ k iv a c t : Bytes,
    decode ⟨0x0025#16, [k, iv, a, c, t]⟩ = .ok (.gcmVerifyDec .reference k iv a c t) ∧
    decode ⟨0x0125#16, [k, iv, a, c, t]⟩ = .ok (.gcmVerifyDec .table k iv a c t)) ∧
  decode ⟨0x0012#16, []⟩ = .ok .ghFinal ∧ decode ⟨0x0013#16, []⟩ = .ok .ghReset ∧
  decode ⟨0x0024#16, []⟩ = .ok .gcmTag ∧ decode ⟨0x0026#16, []⟩ = .ok .gcmAbort

/-- R99: the reserved opcode values are the listed ones, and a command with one raises BAD_OPCODE and has no other effect,
whatever its other bits and its operands. -/
def Obligations.ReservedOpcodeRefused : Prop :=
  (∀ b : BitVec 8, Opcode.ofCode b = none ↔
    b.toNat = 0x00 ∨ (0x02 ≤ b.toNat ∧ b.toNat ≤ 0x0F) ∨ (0x15 ≤ b.toNat ∧ b.toNat ≤ 0x1F) ∨
      0x27 ≤ b.toNat) ∧
  ∀ (s : State) (cmd : Command) (rest : List HostEvent),
    s.pending = .command cmd :: rest → Opcode.ofCode (opcField cmd.cw) = none →
      step s = .next ⟨s.c, s.g, rest, s.responses ++ [⟨.validationError, some .badOpcode, []⟩]⟩

/-- R92: on an opcode of the map, a nonzero reserved field, or S = 1 where the opcode takes no strategy, raises RESERVED_BITS
and has no other effect. (A reserved opcode is R99's case, which R205 checks first.) -/
def Obligations.ReservedBitsRefused : Prop :=
  ∀ (s : State) (cmd : Command) (rest : List HostEvent) (o : Opcode),
    s.pending = .command cmd :: rest → cmd.cw.toNat % 256 = o.code.toNat →
    (cmd.cw.toNat / 512 ≠ 0 ∨
      (cmd.cw.toNat / 256 % 2 = 1 ∧ o ≠ .ghInit ∧ o ≠ .ghOneshot ∧ o ≠ .gcmInit ∧ o ≠ .gcmVerifyDec)) →
      step s = .next ⟨s.c, s.g, rest, s.responses ++ [⟨.validationError, some .reservedBits, []⟩]⟩

/-- R103: every command word and operand list decodes to exactly one of a command of the opcode map with well-formed operands,
BAD_OPCODE, RESERVED_BITS and BAD_OPERANDS, checked in that order; nothing else comes out. -/
def Obligations.DecodingTotal : Prop :=
  ∀ cmd : Command,
    let strategic : Opcode → Prop := fun o =>
      o = .ghInit ∨ o = .ghOneshot ∨ o = .gcmInit ∨ o = .gcmVerifyDec
    let bitsOk : Opcode → Prop := fun o =>
      cmd.cw.toNat / 512 = 0 ∧ (cmd.cw.toNat / 256 % 2 = 1 → strategic o)
    (decode cmd = .error .badOpcode ↔ ∀ o : Opcode, cmd.cw.toNat % 256 ≠ o.code.toNat) ∧
    (decode cmd = .error .reservedBits ↔ ∃ o : Opcode, cmd.cw.toNat % 256 = o.code.toNat ∧ ¬ bitsOk o) ∧
    (decode cmd = .error .badOperands ↔
      ∃ o : Opcode, cmd.cw.toNat % 256 = o.code.toNat ∧ bitsOk o ∧ ¬ FormatFits o.format cmd.ops) ∧
    (∀ o : Opcode, (∃ i, decode cmd = .ok i ∧ i.opcode = o) ↔
      cmd.cw.toNat % 256 = o.code.toNat ∧ bitsOk o ∧ FormatFits o.format cmd.ops) ∧
    ∀ sub, decode cmd = .error sub → sub = .badOpcode ∨ sub = .reservedBits ∨ sub = .badOperands

/-- Every command decodes to one thing only, and the decoder and the encoder agree both ways. -/
def Obligations.DecodeEncodeAgree : Prop :=
  (∀ i : Instr, decode (encode i) = .ok i) ∧
  (∀ (cmd : Command) (i : Instr), decode cmd = .ok i → encode i = cmd)

/-- R96: a command frame put on a byte stream is read back as that command, with the rest of the stream untouched. -/
def Obligations.CommandFrameRoundTrip : Prop :=
  ∀ (cmd : Command) (rest : Bytes), cmd.wf = true → Command.parse (cmd.frame ++ rest) = some (cmd, rest)

/-- Every well-formed command, with every operand it can carry, survives encoding to bytes and decoding. -/
def Obligations.DecodeEncodeBytes : Prop :=
  ∀ (i : Instr) (rest : Bytes), i.wf = true → decodeBytes (encodeBytes i ++ rest) = .ok (i, rest)

/-- R97: response frames on a byte stream can be told apart: the first response and the rest are determined. -/
def Obligations.ResponseFrameUnambiguous : Prop :=
  ∀ (r r' : Response) (a b : Bytes), r.out.length < 2 ^ 64 → r'.out.length < 2 ^ 64 →
    responseFrame r ++ a = responseFrame r' ++ b → r = r' ∧ a = b

/-- R104: the text of a command assembles to the command. -/
def Obligations.AssembleDisassemble : Prop :=
  ∀ i : Instr, assemble (disassemble i) = some (encode i)

/-! ## Steps of an instance -/

/-- A step runs the decoded command, and around it only takes it from what the host has sent. -/
def Obligations.StepRunsDecoded : Prop :=
  ∀ (s : State) (cmd : Command) (rest : List HostEvent) (i : Instr),
    s.pending = .command cmd :: rest → decode cmd = .ok i →
      step s = exec i { s with pending := rest }

/-- A command the decoder refuses gives the ValidationError it names, and nothing else changes. -/
def Obligations.StepRefusesUndecoded : Prop :=
  ∀ (s : State) (cmd : Command) (rest : List HostEvent) (sub : SubCode),
    s.pending = .command cmd :: rest → decode cmd = .error sub →
      step s = .next ⟨s.c, s.g, rest, s.responses ++ [⟨.validationError, some sub, []⟩]⟩

/-- Between commands the core holds its state (R215). That the model takes a step there which changes nothing is its own
convention (log entry 1). -/
def Obligations.IdleHoldsState : Prop :=
  ∀ s : State, s.pending = [] → step s = .next s

/-- R230 and the table of R231: the reset event sets every field to its reset value and returns no response. -/
def Obligations.ResetEventValues : Prop :=
  ∀ (s : State) (rest : List HostEvent), s.pending = .reset :: rest →
    step s = .next
      ⟨{ phase := .uninitialized, dir := none, strat := .reference, key := 0#128, h := 0#128, j0 := 0#128,
         ctr := 0#128, y := 0#128, tbl := .invalid, aadLen := 0#64, cLen := 0#64 },
       { valid := false, strat := .reference, h := 0#128, y := 0#128, tbl := .invalid },
       rest, s.responses⟩

/-- R231: the state right after reset. That nothing is pending and nothing answered is the model's own (log entry 1). -/
def Obligations.ResetStateValues : Prop :=
  State.reset =
    ⟨{ phase := .uninitialized, dir := none, strat := .reference, key := 0#128, h := 0#128, j0 := 0#128,
       ctr := 0#128, y := 0#128, tbl := .invalid, aadLen := 0#64, cLen := 0#64 },
     { valid := false, strat := .reference, h := 0#128, y := 0#128, tbl := .invalid }, [], []⟩

/-- R247: every step and every command ends in a next state: no fault, no refusal, no stuck state; and the run of whatever a
host sends takes all of it and answers each command once. -/
def Obligations.EveryCommandAnswered : Prop :=
  (∀ s : State, ∃ t, step s = .next t) ∧ (∀ (i : Instr) (s : State), ∃ t, exec i s = .next t) ∧
    ∀ es : List HostEvent, (runOf es).state.pending = [] ∧
      (observation es).1.length = (es.filter (fun e => e != .reset)).length

/-- R206: a command adds exactly one response and touches nothing the host still has to send. -/
def Obligations.OneResponsePerCommand : Prop :=
  ∀ (i : Instr) (s t : State), exec i s = .next t →
    ∃ r : Response, t.responses = s.responses ++ [r] ∧ t.pending = s.pending

/-- R202: a command answered with VALIDATION_ERROR has written no field of either context, names its cause, and has an empty
output; and only then is there a sub-code. -/
def Obligations.ValidationErrorWritesNothing : Prop :=
  ∀ (i : Instr) (s t : State) (r : Response), exec i s = .next t → t.responses = s.responses ++ [r] →
    (r.status = .validationError → t.c = s.c ∧ t.g = s.g ∧ r.out = [] ∧ r.sub ≠ none) ∧
    (r.status ≠ .validationError → r.sub = none) ∧
    (r.status = .authenticationFailure → i.opcode = .gcmVerifyDec)

/-- R31: the two contexts are disjoint: no GCM command reads or writes a field of G, and no GHASH command reads or writes a
field of C. -/
def Obligations.ContextsDisjoint : Prop :=
  ∀ (i : Instr) (s s' t t' : State), exec i s = .next t → exec i s' = .next t' →
    (Instr.isGcm i → t.g = s.g ∧ (s.c = s'.c → t.c = t'.c ∧ newResponses s t = newResponses s' t')) ∧
    (Instr.isGh i → t.c = s.c ∧ (s.g = s'.g → t.g = t'.g ∧ newResponses s t = newResponses s' t'))

/-- R231: while C.PHASE = UNINITIALIZED no command's response depends on another field of C, and while G.VALID = 0 none
depends on another field of G. -/
def Obligations.UnusedFieldsUnread : Prop :=
  ∀ (i : Instr) (s s' t t' : State), exec i s = .next t → exec i s' = .next t' →
    (s.g = s'.g → s.c.phase = .uninitialized → s'.c.phase = .uninitialized →
      newResponses s t = newResponses s' t') ∧
    (s.c = s'.c → s.g.valid = false → s'.g.valid = false → newResponses s t = newResponses s' t')

/-- R217, R213: a step of one instance is that instance's own step and changes no other instance. -/
def Obligations.InstancesIsolated : Prop :=
  ∀ (k : Nat) (xs ys : Instances) (s : State), xs[k]? = some s → Instances.step k xs = .next ys →
    (∃ t, Machine.step s = .next t ∧ ys[k]? = some t) ∧ ∀ j : Nat, j ≠ k → ys[j]? = xs[j]?

/-- R72: GF_MUL, GH_FINAL and GH_ONESHOT write no state; GH_RESET and GCM_ABORT done twice leave the contexts done once. -/
def Obligations.IdempotentCommands : Prop :=
  (∀ (i : Instr) (s t : State), (i.opcode = .gfMul ∨ i.opcode = .ghFinal ∨ i.opcode = .ghOneshot) →
    exec i s = .next t →
      t.c = s.c ∧ t.g = s.g ∧ ∀ u, exec i t = .next u → newResponses t u = newResponses s t) ∧
  (∀ (i : Instr) (s t u : State), (i.opcode = .ghReset ∨ i.opcode = .gcmAbort) →
    exec i s = .next t → exec i t = .next u →
      u.c = t.c ∧ u.g = t.g ∧ newResponses t u = newResponses s t)

/-! ## Invariants (10_state.md R51) -/

/-- The invariant holds after reset. -/
def Obligations.ResetMeetsInvariant : Prop := State.reset.Inv ∧ State.reset.c.Absorbed .empty

/-- R51 (a), (c), (e), (f), with the tables of R42 and R49 and the bounds of R43 and R44: every step keeps them. -/
def Obligations.StepKeepsInvariant : Prop :=
  ∀ s t : State, s.Inv → step s = .next t → t.Inv

/-- R51 (d): if C.Y has absorbed the texts x of its session, then after a step it has absorbed those that the command taken
makes of them: GCM_AAD the operand as AAD, GCM_ENC one more chunk, its output, GCM_DEC one more chunk, its operand,
GCM_VERIFY_DEC its A and its C, GCM_INIT, GCM_ABORT and the reset event none, and a refused command, a command on no session
and an idle step the same. For length fields past the bounds of R15, which no run reaches, the length block is that of log
entry 14. -/
def Obligations.StepKeepsAbsorbed : Prop :=
  ∀ (s t : State) (x : SessionText), s.c.Absorbed x → step s = .next t →
    match s.pending with
    | [] => t.c.Absorbed x
    | .reset :: _ => t.c.Absorbed ⟨[], []⟩
    | .command cmd :: _ =>
      match decode cmd with
      | .error _ => t.c.Absorbed x
      | .ok i => ∃ r : Response, t.responses = s.responses ++ [r] ∧
          t.c.Absorbed
            (if r.status = .validationError then x
            else match i with
              | .gcmInit _ _ _ => ⟨[], []⟩
              | .gcmAad a => ⟨a, x.chunks⟩
              | .gcmEnc _ => ⟨x.aad, x.chunks ++ [r.out]⟩
              | .gcmDec c => ⟨x.aad, x.chunks ++ [c]⟩
              | .gcmVerifyDec _ _ _ a c _ => ⟨a, [c]⟩
              | .gcmAbort => ⟨[], []⟩
              | _ => x)

/-- R51 (b), R37: while a session is open, only GCM_ABORT writes its key, hash key, J0, strategy or table, and no other
command changes bytes 0 to 11 of the counter. -/
def Obligations.SessionConstants : Prop :=
  ∀ (i : Instr) (s t : State), exec i s = .next t → s.c.inSession → i.opcode ≠ .gcmAbort →
    t.c.key = s.c.key ∧ t.c.h = s.c.h ∧ t.c.j0 = s.c.j0 ∧ t.c.strat = s.c.strat ∧ t.c.tbl = s.c.tbl ∧
      t.c.ctr.toBytes.take 12 = s.c.ctr.toBytes.take 12

/-- R170: the phase table. Where the table gives a phase, the command can only end there; where it gives a sub-code, that is
the answer and the phase stays. -/
def Obligations.PhaseTable : Prop :=
  ∀ (i : Instr) (s t : State) (r : Response), exec i s = .next t → t.responses = s.responses ++ [r] →
    let oos : Response := ⟨.validationError, some .outOfSequence, []⟩
    let goes : Phase → Prop := fun ph =>
      (r.status ≠ .validationError → t.c.phase = ph) ∧
      (r.status = .validationError → t.c.phase = s.c.phase ∧ r.sub ≠ some .outOfSequence ∧
        r.sub ≠ some .aadAlreadySet ∧ r.sub ≠ some .directionMixed)
    match i.opcode with
    | .gcmInit =>
      (s.c.phase = .uninitialized ∨ s.c.phase = .finalized → goes .initialized) ∧
      (s.c.inSession → r = oos ∧ t.c.phase = s.c.phase)
    | .gcmAad =>
      (s.c.phase = .initialized → goes .aadPhase) ∧
      (s.c.phase = .aadPhase → r = ⟨.validationError, some .aadAlreadySet, []⟩ ∧ t.c.phase = .aadPhase) ∧
      (s.c.phase = .uninitialized ∨ s.c.phase = .cipherPhase ∨ s.c.phase = .finalized →
        r = oos ∧ t.c.phase = s.c.phase)
    | .gcmEnc =>
      (s.c.phase = .initialized ∨ s.c.phase = .aadPhase ∨
        (s.c.phase = .cipherPhase ∧ s.c.dir = some .encrypt) → goes .cipherPhase) ∧
      (s.c.phase = .cipherPhase ∧ s.c.dir ≠ some .encrypt →
        r = ⟨.validationError, some .directionMixed, []⟩ ∧ t.c.phase = .cipherPhase) ∧
      (s.c.phase = .uninitialized ∨ s.c.phase = .finalized → r = oos ∧ t.c.phase = s.c.phase)
    | .gcmDec =>
      (s.c.phase = .initialized ∨ s.c.phase = .aadPhase ∨
        (s.c.phase = .cipherPhase ∧ s.c.dir = some .decrypt) → goes .cipherPhase) ∧
      (s.c.phase = .cipherPhase ∧ s.c.dir ≠ some .decrypt →
        r = ⟨.validationError, some .directionMixed, []⟩ ∧ t.c.phase = .cipherPhase) ∧
      (s.c.phase = .uninitialized ∨ s.c.phase = .finalized → r = oos ∧ t.c.phase = s.c.phase)
    | .gcmTag =>
      (s.c.phase = .cipherPhase → r.status = .ok ∧ t.c.phase = .finalized) ∧
      (s.c.phase ≠ .cipherPhase → r = oos ∧ t.c.phase = s.c.phase)
    | .gcmVerifyDec =>
      (s.c.phase = .uninitialized ∨ s.c.phase = .finalized → goes .finalized) ∧
      (s.c.inSession → r = oos ∧ t.c.phase = s.c.phase)
    | .gcmAbort => r.status = .ok ∧ t.c.phase = .uninitialized
    | _ => t.c.phase = s.c.phase

/-! ## The field (40_gf128.md) -/

/-- R113 (a): gfmul is the product of the polynomials modulo P(x) = x^128 + x^7 + x^2 + x + 1, bit i being the coefficient
of x^i (R110). -/
def Obligations.GfmulIsPolynomialProduct : Prop :=
  let poly : Block → Polynomial (ZMod 2) := fun b =>
    ∑ i ∈ Finset.range 128, if blockBit b i = true then Polynomial.X ^ i else 0
  ∀ x y : Block,
    (Polynomial.X ^ 128 + Polynomial.X ^ 7 + Polynomial.X ^ 2 + Polynomial.X + 1 : Polynomial (ZMod 2)) ∣
      poly (gfmul x y) - poly x * poly y

/-- R113 (b), (c): gfmul commutes and associates. -/
def Obligations.GfmulCommutesAssociates : Prop :=
  (∀ x y : Block, gfmul x y = gfmul y x) ∧
  ∀ x y w : Block, gfmul (gfmul x y) w = gfmul x (gfmul y w)

/-- R113 (d), (e), (f): gfmul distributes over XOR in its first operand, ONE is its one and zero its zero. -/
def Obligations.GfmulDistributesWithUnits : Prop :=
  (∀ x w y : Block, gfmul (x ^^^ w) y = gfmul x y ^^^ gfmul w y) ∧
  (∀ y : Block, gfmul 0x80000000000000000000000000000000#128 y = y) ∧
  ∀ y : Block, gfmul 0 y = 0

/-- R114: GF_MUL, with its word, its operand form, and its effect in every state. -/
def Obligations.GfMulCommand : Prop :=
  FormErrors 0x01 [0x0001#16] (fun ops => ∃ x y : Bytes, ops = [x, y] ∧ x.length = 16 ∧ y.length = 16) ∧
  (∀ x y : Bytes, x.length = 16 → y.length = 16 →
    decode ⟨0x0001#16, [x, y]⟩ = .ok (.gfMul (Block.ofBytes x) (Block.ofBytes y))) ∧
  ∀ (x y : Block) (s : State),
    exec (.gfMul x y) s = .next ⟨s.c, s.g, s.pending, s.responses ++ [⟨.ok, none, (gfmul x y).toBytes⟩]⟩

/-! ## GHASH (41_ghash.md) -/

/-- R123: the table contract, for the reference construction. -/
def Obligations.TableContract : Prop := ∀ x h : Block, tmul x (buildTable h) = gfmul x h

/-- R133: both strategies give the same hash, and GH_ONESHOT answers the same for S = 0 and S = 1 in every state. -/
def Obligations.StrategyEquivalence : Prop :=
  (∀ (h y : Block) (d : Bytes),
    ghashUpdate .reference y h .invalid d = ghashUpdate .table y h (.valid h) d) ∧
  ∀ (h : Block) (a c : Bytes) (s : State),
    exec (.ghOneshot .reference h a c) s = exec (.ghOneshot .table h a c) s

/-- R132: the chunking law, and a pair of chunks on which the two sides differ. -/
def Obligations.ChunkingLaw : Prop :=
  (∀ (s : Strategy) (y h : Block) (t : Table) (d1 d2 : Bytes), d1.length % 16 = 0 →
    ghashUpdate s (ghashUpdate s y h t d1) h t d2 = ghashUpdate s y h t (d1 ++ d2)) ∧
  ∃ (h : Block) (d1 d2 : Bytes),
    ghashUpdate .reference (ghashUpdate .reference 0 h .invalid d1) h .invalid d2 ≠
      ghashUpdate .reference 0 h .invalid (d1 ++ d2)

/-- R134: the accumulator is the sum of B_j times H^(m - j), block j counted from 0, the product with the power written as
m - j multiplications by H. -/
def Obligations.HornerForm : Prop :=
  ∀ (h : Block) (t : Table) (d : Bytes),
    ghashUpdate .reference 0 h t d =
      (List.range (blockCount d.length)).foldl
        (fun z j => z ^^^ (fun v => gfmul v h)^[blockCount d.length - j] (pad16 (blockAt d j))) 0

/-- R67: the block partition of a byte string. -/
def Obligations.BlockPartition : Prop :=
  ∀ d : Bytes,
    (blocks d).length = (d.length + 15) / 16 ∧ (blocks d).flatten = d ∧
    (∀ j : Nat, j < (blocks d).length → (blocks d)[j]? = some (blockAt d j)) ∧
    (∀ j : Nat, j + 1 < (blocks d).length → (blockAt d j).length = 16) ∧
    (d ≠ [] → 1 ≤ (blockAt d ((blocks d).length - 1)).length ∧
      (blockAt d ((blocks d).length - 1)).length = d.length - 16 * ((blocks d).length - 1) ∧
      (blockAt d ((blocks d).length - 1)).length ≤ 16)

/-- R121: the length block is the two 64-bit big-endian bit lengths, and the bounds of R15 keep them from wrapping. -/
def Obligations.LengthBlock : Prop :=
  ∀ a c : Nat, a ≤ 2 ^ 61 - 1 → c ≤ 2 ^ 61 - 1 →
    8 * a < 2 ^ 64 ∧ 8 * c < 2 ^ 64 ∧
    (lenBlock a c).toBytes = beBytes 8 (8 * a) ++ beBytes 8 (8 * c) ∧
    intBE ((lenBlock a c).toBytes.take 8) = 8 * a ∧ intBE ((lenBlock a c).toBytes.drop 8) = 8 * c

/-- R127: GH_INIT, accepted in every state. -/
def Obligations.GhInitCommand : Prop :=
  FormErrors 0x10 [0x0010#16, 0x0110#16] (fun ops => ∃ h : Bytes, ops = [h] ∧ h.length = 16) ∧
  (∀ h : Bytes, h.length = 16 →
    decode ⟨0x0010#16, [h]⟩ = .ok (.ghInit .reference (Block.ofBytes h)) ∧
    decode ⟨0x0110#16, [h]⟩ = .ok (.ghInit .table (Block.ofBytes h))) ∧
  ∀ (h : Block) (s : State),
    exec (.ghInit .reference h) s =
      .next ⟨s.c, { valid := true, strat := .reference, h := h, y := 0, tbl := .invalid }, s.pending,
        s.responses ++ [⟨.ok, none, []⟩]⟩ ∧
    exec (.ghInit .table h) s =
      .next ⟨s.c, { valid := true, strat := .table, h := h, y := 0, tbl := .valid h }, s.pending,
        s.responses ++ [⟨.ok, none, []⟩]⟩

/-- R128, with the absorption of R120 written out block by block: GH_UPDATE. -/
def Obligations.GhUpdateCommand : Prop :=
  FormErrors 0x11 [0x0011#16] (fun ops => ∃ d : Bytes, ops = [d]) ∧
  (∀ d : Bytes, decode ⟨0x0011#16, [d]⟩ = .ok (.ghUpdate d)) ∧
  (∀ (d : Bytes) (s : State), s.g.valid = false →
    exec (.ghUpdate d) s =
      .next ⟨s.c, s.g, s.pending, s.responses ++ [⟨.validationError, some .ghNotInitialized, []⟩]⟩) ∧
  ∀ (d : Bytes) (s : State), s.g.valid = true →
    exec (.ghUpdate d) s =
      .next ⟨s.c,
        { s.g with
          y := (List.range ((d.length + 15) / 16)).foldl
            (fun y j => mulH s.g.strat
              (y ^^^ Block.ofBytes (blockAt d j ++ zeros (16 - (blockAt d j).length))) s.g.h s.g.tbl) s.g.y },
        s.pending, s.responses ++ [⟨.ok, none, []⟩]⟩

/-- R129: GH_FINAL. -/
def Obligations.GhFinalCommand : Prop :=
  FormErrors 0x12 [0x0012#16] (fun ops => ops = []) ∧ decode ⟨0x0012#16, []⟩ = .ok .ghFinal ∧
  (∀ s : State, s.g.valid = false →
    exec .ghFinal s =
      .next ⟨s.c, s.g, s.pending, s.responses ++ [⟨.validationError, some .ghNotInitialized, []⟩]⟩) ∧
  ∀ s : State, s.g.valid = true →
    exec .ghFinal s = .next ⟨s.c, s.g, s.pending, s.responses ++ [⟨.ok, none, s.g.y.toBytes⟩]⟩

/-- R130: GH_RESET. -/
def Obligations.GhResetCommand : Prop :=
  FormErrors 0x13 [0x0013#16] (fun ops => ops = []) ∧ decode ⟨0x0013#16, []⟩ = .ok .ghReset ∧
  (∀ s : State, s.g.valid = false →
    exec .ghReset s =
      .next ⟨s.c, s.g, s.pending, s.responses ++ [⟨.validationError, some .ghNotInitialized, []⟩]⟩) ∧
  ∀ s : State, s.g.valid = true →
    exec .ghReset s = .next ⟨s.c, { s.g with y := 0 }, s.pending, s.responses ++ [⟨.ok, none, []⟩]⟩

/-- R131 with R122: GH_ONESHOT, which reads and writes no field of either context. The length of A is checked first. -/
def Obligations.GhOneshotCommand : Prop :=
  FormErrors 0x14 [0x0014#16, 0x0114#16] (fun ops => ∃ h a c : Bytes, ops = [h, a, c] ∧ h.length = 16) ∧
  (∀ h a c : Bytes, h.length = 16 →
    decode ⟨0x0014#16, [h, a, c]⟩ = .ok (.ghOneshot .reference (Block.ofBytes h) a c) ∧
    decode ⟨0x0114#16, [h, a, c]⟩ = .ok (.ghOneshot .table (Block.ofBytes h) a c)) ∧
  (∀ (st : Strategy) (h : Block) (a c : Bytes) (s : State), a.length > 2 ^ 61 - 1 →
    exec (.ghOneshot st h a c) s =
      .next ⟨s.c, s.g, s.pending, s.responses ++ [⟨.validationError, some .badAadLength, []⟩]⟩) ∧
  (∀ (st : Strategy) (h : Block) (a c : Bytes) (s : State), a.length ≤ 2 ^ 61 - 1 → c.length > 2 ^ 61 - 1 →
    exec (.ghOneshot st h a c) s =
      .next ⟨s.c, s.g, s.pending, s.responses ++ [⟨.validationError, some .badDataLength, []⟩]⟩) ∧
  ∀ (st : Strategy) (h : Block) (a c : Bytes) (s : State), a.length ≤ 2 ^ 61 - 1 → c.length ≤ 2 ^ 61 - 1 →
    exec (.ghOneshot st h a c) s =
      .next ⟨s.c, s.g, s.pending, s.responses ++ [⟨.ok, none,
        ((blocks a ++ blocks c ++ [beBytes 8 (8 * a.length) ++ beBytes 8 (8 * c.length)]).foldl
          (fun y b => gfmul (y ^^^ Block.ofBytes (b ++ zeros (16 - b.length))) h) 0).toBytes⟩]⟩

/-! ## GCM (42_gcm.md) -/

/-- R150: inc32 adds 1 modulo 2^32 to bytes 12 to 15 and leaves the others. -/
def Obligations.Inc32CounterField : Prop :=
  ∀ b : Block, (inc32 b).toBytes.take 12 = b.toBytes.take 12 ∧
    (inc32 b).toBytes.drop 12 = beBytes 4 ((intBE (b.toBytes.drop 12) + 1) % 2 ^ 32)

/-- R168, R240: the counter runs through 2^32 blocks and comes back; where sessions start at inc32(J0), the block after
2^32 - 1 others is J0 itself. -/
def Obligations.CounterWrap : Prop :=
  (∀ b : Block, inc32^[2 ^ 32] b = b) ∧
  ∀ (p : Platform) (j0 : Block), p.firstCounter = .inc32J0 → inc32^[2 ^ 32 - 1] (firstCounterBlock p j0) = j0

/-- R151: the initial counter block, by the fast path at 12 bytes and by hashing otherwise, for an IV within the bound of
R15. -/
def Obligations.InitialCounterBlock : Prop :=
  ∀ (s : Strategy) (h : Block) (iv : Bytes), iv.length ≤ 2 ^ 61 - 1 →
    (iv.length = 12 → (deriveJ0 s h (tableFor s h) iv).toBytes = iv ++ [0x00#8, 0x00#8, 0x00#8, 0x01#8]) ∧
    (iv.length ≠ 12 → deriveJ0 s h (tableFor s h) iv =
      (blocks iv ++ [zeros 8 ++ beBytes 8 (8 * iv.length)]).foldl
        (fun y b => gfmul (y ^^^ Block.ofBytes (b ++ zeros (16 - b.length))) h) 0)

/-- R155 with session_init of R154 and the counter of R152: GCM_INIT. -/
def Obligations.GcmInitCommand : Prop :=
  FormErrors 0x20 [0x0020#16, 0x0120#16] (fun ops => ∃ k iv : Bytes, ops = [k, iv]) ∧
  (∀ k iv : Bytes, decode ⟨0x0020#16, [k, iv]⟩ = .ok (.gcmInit .reference k iv) ∧
    decode ⟨0x0120#16, [k, iv]⟩ = .ok (.gcmInit .table k iv)) ∧
  (∀ (st : Strategy) (k iv : Bytes) (s : State),
    let raises : SubCode → Prop := fun sub =>
      exec (.gcmInit st k iv) s =
        .next ⟨s.c, s.g, s.pending, s.responses ++ [⟨.validationError, some sub, []⟩]⟩
    let idle : Prop := s.c.phase = .uninitialized ∨ s.c.phase = .finalized
    (s.c.inSession → raises .outOfSequence) ∧
    (idle → k.length ≠ 16 → raises .badKeyLength) ∧
    (idle → k.length = 16 → (iv.length = 0 ∨ iv.length > 2 ^ 61 - 1) → raises .badIvLength)) ∧
  ∀ (st : Strategy) (k iv : Bytes) (s : State), s.c.phase = .uninitialized ∨ s.c.phase = .finalized →
    k.length = 16 → 0 < iv.length → iv.length ≤ 2 ^ 61 - 1 →
    let key : Key := BitVec.ofNat 128 (intBE k)
    let h : Block := Config.platform.cipher key 0
    let t : Table := match st with
      | .reference => .invalid
      | .table => .valid h
    let j0 : Block := deriveJ0 st h t iv
    exec (.gcmInit st k iv) s =
      .next ⟨{ phase := .initialized, dir := none, strat := st, key := key, h := h, j0 := j0,
               ctr := match Config.platform.firstCounter with
                 | .inc32J0 => inc32 j0
                 | .j0 => j0,
               y := 0, tbl := t, aadLen := 0, cLen := 0 },
        s.g, s.pending, s.responses ++ [⟨.ok, none, []⟩]⟩

/-- R156 with session_aad of R154: GCM_AAD. -/
def Obligations.GcmAadCommand : Prop :=
  FormErrors 0x21 [0x0021#16] (fun ops => ∃ a : Bytes, ops = [a]) ∧
  (∀ a : Bytes, decode ⟨0x0021#16, [a]⟩ = .ok (.gcmAad a)) ∧
  (∀ (a : Bytes) (s : State),
    let raises : SubCode → Prop := fun sub =>
      exec (.gcmAad a) s = .next ⟨s.c, s.g, s.pending, s.responses ++ [⟨.validationError, some sub, []⟩]⟩
    (s.c.phase = .aadPhase → raises .aadAlreadySet) ∧
    (s.c.phase ≠ .aadPhase → s.c.phase ≠ .initialized → raises .outOfSequence) ∧
    (s.c.phase = .initialized → a.length > 2 ^ 61 - 1 → raises .badAadLength)) ∧
  ∀ (a : Bytes) (s : State), s.c.phase = .initialized → a.length ≤ 2 ^ 61 - 1 →
    exec (.gcmAad a) s =
      .next ⟨{ s.c with
          y := (blocks a).foldl (fun y b => mulH s.c.strat
            (y ^^^ Block.ofBytes (b ++ zeros (16 - b.length))) s.c.h s.c.tbl) s.c.y
          aadLen := BitVec.ofNat 64 a.length
          phase := .aadPhase },
        s.g, s.pending, s.responses ++ [⟨.ok, none, []⟩]⟩

/-- R157 with the pass of R153: GCM_ENC. Output block j is input block j XORed with the cipher of the counter advanced j
times; C.Y absorbs the output; C.CTR advances once per block, the short one included. -/
def Obligations.GcmEncCommand : Prop :=
  FormErrors 0x22 [0x0022#16] (fun ops => ∃ d : Bytes, ops = [d]) ∧
  (∀ d : Bytes, decode ⟨0x0022#16, [d]⟩ = .ok (.gcmEnc d)) ∧
  (∀ (d : Bytes) (s : State),
    let raises : SubCode → Prop := fun sub =>
      exec (.gcmEnc d) s = .next ⟨s.c, s.g, s.pending, s.responses ++ [⟨.validationError, some sub, []⟩]⟩
    (s.c.phase = .uninitialized ∨ s.c.phase = .finalized → raises .outOfSequence) ∧
    (s.c.phase = .cipherPhase → s.c.dir ≠ some .encrypt → raises .directionMixed) ∧
    (s.c.phase = .initialized ∨ s.c.phase = .aadPhase ∨ (s.c.phase = .cipherPhase ∧ s.c.dir = some .encrypt) →
      s.c.cLen.toNat + d.length > 2 ^ 61 - 1 → raises .badDataLength)) ∧
  ∀ (d : Bytes) (s : State),
    s.c.phase = .initialized ∨ s.c.phase = .aadPhase ∨ (s.c.phase = .cipherPhase ∧ s.c.dir = some .encrypt) →
    s.c.cLen.toNat + d.length ≤ 2 ^ 61 - 1 →
    ∃ out : Bytes, out.length = d.length ∧
      (∀ j : Nat, j < (d.length + 15) / 16 →
        blockAt out j = List.zipWith (· ^^^ ·) (blockAt d j)
          (Config.platform.cipher s.c.key (inc32^[j] s.c.ctr)).toBytes) ∧
      exec (.gcmEnc d) s =
        .next ⟨{ s.c with
            ctr := inc32^[(d.length + 15) / 16] s.c.ctr
            y := ghashUpdate s.c.strat s.c.y s.c.h s.c.tbl out
            cLen := s.c.cLen + BitVec.ofNat 64 d.length
            dir := some .encrypt
            phase := .cipherPhase },
          s.g, s.pending, s.responses ++ [⟨.ok, none, out⟩]⟩

/-- R158 with the pass of R153: GCM_DEC, as GCM_ENC except that C.Y absorbs the input. -/
def Obligations.GcmDecCommand : Prop :=
  FormErrors 0x23 [0x0023#16] (fun ops => ∃ d : Bytes, ops = [d]) ∧
  (∀ d : Bytes, decode ⟨0x0023#16, [d]⟩ = .ok (.gcmDec d)) ∧
  (∀ (d : Bytes) (s : State),
    let raises : SubCode → Prop := fun sub =>
      exec (.gcmDec d) s = .next ⟨s.c, s.g, s.pending, s.responses ++ [⟨.validationError, some sub, []⟩]⟩
    (s.c.phase = .uninitialized ∨ s.c.phase = .finalized → raises .outOfSequence) ∧
    (s.c.phase = .cipherPhase → s.c.dir ≠ some .decrypt → raises .directionMixed) ∧
    (s.c.phase = .initialized ∨ s.c.phase = .aadPhase ∨ (s.c.phase = .cipherPhase ∧ s.c.dir = some .decrypt) →
      s.c.cLen.toNat + d.length > 2 ^ 61 - 1 → raises .badDataLength)) ∧
  ∀ (d : Bytes) (s : State),
    s.c.phase = .initialized ∨ s.c.phase = .aadPhase ∨ (s.c.phase = .cipherPhase ∧ s.c.dir = some .decrypt) →
    s.c.cLen.toNat + d.length ≤ 2 ^ 61 - 1 →
    ∃ out : Bytes, out.length = d.length ∧
      (∀ j : Nat, j < (d.length + 15) / 16 →
        blockAt out j = List.zipWith (· ^^^ ·) (blockAt d j)
          (Config.platform.cipher s.c.key (inc32^[j] s.c.ctr)).toBytes) ∧
      exec (.gcmDec d) s =
        .next ⟨{ s.c with
            ctr := inc32^[(d.length + 15) / 16] s.c.ctr
            y := ghashUpdate s.c.strat s.c.y s.c.h s.c.tbl d
            cLen := s.c.cLen + BitVec.ofNat 64 d.length
            dir := some .decrypt
            phase := .cipherPhase },
          s.g, s.pending, s.responses ++ [⟨.ok, none, out⟩]⟩

/-- R159 with session_tag of R154: GCM_TAG, with the length fields within their bounds (R43, R44). -/
def Obligations.GcmTagCommand : Prop :=
  FormErrors 0x24 [0x0024#16] (fun ops => ops = []) ∧ decode ⟨0x0024#16, []⟩ = .ok .gcmTag ∧
  (∀ s : State, s.c.phase ≠ .cipherPhase →
    exec .gcmTag s =
      .next ⟨s.c, s.g, s.pending, s.responses ++ [⟨.validationError, some .outOfSequence, []⟩]⟩) ∧
  ∀ s : State, s.c.phase = .cipherPhase → s.c.aadLen.toNat ≤ 2 ^ 61 - 1 → s.c.cLen.toNat ≤ 2 ^ 61 - 1 →
    let y : Block := mulH s.c.strat
      (s.c.y ^^^ (BitVec.ofNat 64 (8 * s.c.aadLen.toNat) ++ BitVec.ofNat 64 (8 * s.c.cLen.toNat))) s.c.h s.c.tbl
    exec .gcmTag s =
      .next ⟨{ s.c with y := y, phase := .finalized }, s.g, s.pending,
        s.responses ++ [⟨.ok, none, (Config.platform.cipher s.c.key s.c.j0 ^^^ y).toBytes⟩]⟩

/-- R161: the comparison of two tags is equality. -/
def Obligations.TagComparisonExact : Prop :=
  ∀ t u : Bytes, t.length = 16 → u.length = 16 → (tagsEqual t u = true ↔ t = u)

/-- R160: GCM_VERIFY_DEC checks sequence and lengths in order; past them it is GCM_INIT, GCM_AAD, GCM_DEC and GCM_TAG in
one command, which releases the plaintext exactly when the computed tag is the expected one, and zeros otherwise. -/
def Obligations.GcmVerifyDecCommand : Prop :=
  FormErrors 0x25 [0x0025#16, 0x0125#16] (fun ops => ∃ k iv a c t : Bytes, ops = [k, iv, a, c, t]) ∧
  (∀ k iv a c t : Bytes,
    decode ⟨0x0025#16, [k, iv, a, c, t]⟩ = .ok (.gcmVerifyDec .reference k iv a c t) ∧
    decode ⟨0x0125#16, [k, iv, a, c, t]⟩ = .ok (.gcmVerifyDec .table k iv a c t)) ∧
  (∀ (st : Strategy) (k iv a c t : Bytes) (s : State),
    let raises : SubCode → Prop := fun sub =>
      exec (.gcmVerifyDec st k iv a c t) s =
        .next ⟨s.c, s.g, s.pending, s.responses ++ [⟨.validationError, some sub, []⟩]⟩
    let idle : Prop := s.c.phase = .uninitialized ∨ s.c.phase = .finalized
    let ivOk : Prop := 0 < iv.length ∧ iv.length ≤ 2 ^ 61 - 1
    (s.c.inSession → raises .outOfSequence) ∧
    (idle → k.length ≠ 16 → raises .badKeyLength) ∧
    (idle → k.length = 16 → ¬ ivOk → raises .badIvLength) ∧
    (idle → k.length = 16 → ivOk → a.length > 2 ^ 61 - 1 → raises .badAadLength) ∧
    (idle → k.length = 16 → ivOk → a.length ≤ 2 ^ 61 - 1 → c.length > 2 ^ 61 - 1 → raises .badDataLength) ∧
    (idle → k.length = 16 → ivOk → a.length ≤ 2 ^ 61 - 1 → c.length ≤ 2 ^ 61 - 1 → t.length ≠ 16 →
      raises .badTagLength)) ∧
  ∀ (st : Strategy) (k iv a c t : Bytes) (s : State),
    s.c.phase = .uninitialized ∨ s.c.phase = .finalized → k.length = 16 → 0 < iv.length →
    iv.length ≤ 2 ^ 61 - 1 → a.length ≤ 2 ^ 61 - 1 → c.length ≤ 2 ^ 61 - 1 → t.length = 16 →
    ∃ (s1 s2 s3 s4 : State) (plain tag : Bytes),
      exec (.gcmInit st k iv) s = .next s1 ∧ exec (.gcmAad a) s1 = .next s2 ∧
      exec (.gcmDec c) s2 = .next s3 ∧ exec .gcmTag s3 = .next s4 ∧
      s4.responses = s.responses ++
        [⟨.ok, none, []⟩, ⟨.ok, none, []⟩, ⟨.ok, none, plain⟩, ⟨.ok, none, tag⟩] ∧
      s4.c.phase = .finalized ∧ s4.c.dir = some .decrypt ∧ tag.length = 16 ∧ plain.length = c.length ∧
      exec (.gcmVerifyDec st k iv a c t) s =
        .next ⟨s4.c, s.g, s.pending, s.responses ++
          [if tag = t then ⟨.ok, none, plain⟩ else ⟨.authenticationFailure, none, zeros c.length⟩]⟩

/-- R204: after an AUTHENTICATION_FAILURE the same command fails in the same way, with the same output. -/
def Obligations.AuthFailureNotTransient : Prop :=
  ∀ (st : Strategy) (k iv a c t : Bytes) (s s1 : State) (r : Response),
    exec (.gcmVerifyDec st k iv a c t) s = .next s1 → s1.responses = s.responses ++ [r] →
    r.status = .authenticationFailure →
      r.out = zeros c.length ∧ s1.c.phase = .finalized ∧ s1.c.dir = some .decrypt ∧
      exec (.gcmVerifyDec st k iv a c t) s1 =
        .next ⟨s1.c, s1.g, s1.pending, s1.responses ++ [⟨.authenticationFailure, none, zeros c.length⟩]⟩

/-- R162: GCM_ABORT, accepted in every phase. -/
def Obligations.GcmAbortCommand : Prop :=
  FormErrors 0x26 [0x0026#16] (fun ops => ops = []) ∧ decode ⟨0x0026#16, []⟩ = .ok .gcmAbort ∧
  ∀ s : State,
    exec .gcmAbort s =
      .next ⟨{ phase := .uninitialized, dir := none, strat := .reference, key := 0#128, h := 0#128, j0 := 0#128,
               ctr := 0#128, y := 0#128, tbl := .invalid, aadLen := 0#64, cLen := 0#64 },
        s.g, s.pending, s.responses ++ [⟨.ok, none, []⟩]⟩

/-- R105: GCM_SEAL stops at the first command whose status is not OK. GCM_INIT refused, out of sequence or for its key or
IV, is the one response; a refused GCM_AAD is the second response, on the state GCM_INIT left; a refused GCM_ENC the third,
on the state GCM_AAD left. (GCM_TAG after an accepted GCM_ENC is not refused.) -/
def Obligations.SealStopsAtFirstFailure : Prop :=
  ∀ (st : Strategy) (k iv a p : Bytes) (s : State),
    let stopsIn : State → SubCode → Prop := fun u sub =>
      gcmSeal st k iv a p s =
        .next ⟨u.c, u.g, u.pending, u.responses ++ [⟨.validationError, some sub, []⟩]⟩
    let idle : Prop := s.c.phase = .uninitialized ∨ s.c.phase = .finalized
    let ivOk : Prop := 0 < iv.length ∧ iv.length ≤ 2 ^ 61 - 1
    (s.c.inSession → stopsIn s .outOfSequence) ∧
    (idle → k.length ≠ 16 → stopsIn s .badKeyLength) ∧
    (idle → k.length = 16 → ¬ ivOk → stopsIn s .badIvLength) ∧
    (idle → k.length = 16 → ivOk → a.length > 2 ^ 61 - 1 →
      ∃ s1 : State, exec (.gcmInit st k iv) s = .next s1 ∧ s1.responses = s.responses ++ [⟨.ok, none, []⟩] ∧
        stopsIn s1 .badAadLength) ∧
    (idle → k.length = 16 → ivOk → a.length ≤ 2 ^ 61 - 1 → p.length > 2 ^ 61 - 1 →
      ∃ s1 s2 : State, exec (.gcmInit st k iv) s = .next s1 ∧ exec (.gcmAad a) s1 = .next s2 ∧
        s2.responses = s.responses ++ [⟨.ok, none, []⟩, ⟨.ok, none, []⟩] ∧ stopsIn s2 .badDataLength)

/-- R163: a whole sealed message: ciphertext blocks from the counters after J0 (from J0 on where FIRST_COUNTER = J0), and
the tag Cipher(K, J0) XOR GHASH_H(A, C). A session without GCM_AAD gives those of A empty. -/
def Obligations.SealWholeMessage : Prop :=
  ∀ (st : Strategy) (k iv a p : Bytes) (s : State),
    s.c.phase = .uninitialized ∨ s.c.phase = .finalized → k.length = 16 → 0 < iv.length →
    iv.length ≤ 2 ^ 61 - 1 → a.length ≤ 2 ^ 61 - 1 → p.length ≤ 2 ^ 61 - 1 →
    let key : Key := Key.ofBytes k
    let h : Block := Config.platform.cipher key 0
    let j0 : Block := deriveJ0 .reference h .invalid iv
    let f : Nat := match Config.platform.firstCounter with
      | .inc32J0 => 1
      | .j0 => 0
    let tag : Bytes → Bytes → Bytes := fun a c =>
      (Config.platform.cipher key j0 ^^^ ghash .reference h .invalid a c).toBytes
    ∃ (t u : State) (c : Bytes), c.length = p.length ∧
      (∀ j : Nat, j < (p.length + 15) / 16 →
        blockAt c j = List.zipWith (· ^^^ ·) (blockAt p j)
          (Config.platform.cipher key (inc32^[j + f] j0)).toBytes) ∧
      gcmSeal st k iv a p s = .next t ∧
      t.responses =
        s.responses ++ [⟨.ok, none, []⟩, ⟨.ok, none, []⟩, ⟨.ok, none, c⟩, ⟨.ok, none, tag a c⟩] ∧
      t.c.phase = .finalized ∧ t.g = s.g ∧ t.pending = s.pending ∧
      runWhileOk [.gcmInit st k iv, .gcmEnc p, .gcmTag] s = .next u ∧
      u.responses = s.responses ++ [⟨.ok, none, []⟩, ⟨.ok, none, c⟩, ⟨.ok, none, tag [] c⟩] ∧
      u.c.phase = .finalized ∧ u.g = s.g ∧ u.pending = s.pending

/-- R165: what GCM_SEAL gives, GCM_VERIFY_DEC opens, with either strategy on either side and in any state that takes the
command. -/
def Obligations.SealThenVerifyRoundTrip : Prop :=
  ∀ (st st' : Strategy) (k iv a p c tag : Bytes) (s t s' : State) (r1 r2 : Response),
    gcmSeal st k iv a p s = .next t →
    t.responses = s.responses ++ [r1, r2, ⟨.ok, none, c⟩, ⟨.ok, none, tag⟩] →
    s'.c.phase = .uninitialized ∨ s'.c.phase = .finalized →
    ∃ u : State, exec (.gcmVerifyDec st' k iv a c tag) s' = .next u ∧
      u.responses = s'.responses ++ [⟨.ok, none, p⟩] ∧ u.c.phase = .finalized

/-- R164: two passes in a row are one pass over the joined data when the first is a whole number of blocks: the same context
and the joined output, for GCM_ENC and for GCM_DEC. -/
def Obligations.ChunkedPass : Prop :=
  ∀ (d1 d2 : Bytes) (s s1 s2 : State) (o1 o2 : Bytes), d1.length % 16 = 0 →
    (exec (.gcmEnc d1) s = .next s1 → exec (.gcmEnc d2) s1 = .next s2 →
      s2.responses = s.responses ++ [⟨.ok, none, o1⟩, ⟨.ok, none, o2⟩] →
      exec (.gcmEnc (d1 ++ d2)) s = .next ⟨s2.c, s.g, s.pending, s.responses ++ [⟨.ok, none, o1 ++ o2⟩]⟩) ∧
    (exec (.gcmDec d1) s = .next s1 → exec (.gcmDec d2) s1 = .next s2 →
      s2.responses = s.responses ++ [⟨.ok, none, o1⟩, ⟨.ok, none, o2⟩] →
      exec (.gcmDec (d1 ++ d2)) s = .next ⟨s2.c, s.g, s.pending, s.responses ++ [⟨.ok, none, o1 ++ o2⟩]⟩)

/-- R169: with FIRST_COUNTER = J0, whoever knows the first plaintext block of a message, a full one, learns the hash. (The
lengths are free: past the bounds of R15 the hash is the model's, log entry 14.) -/
def Obligations.FirstCounterJ0LeaksHash : Prop :=
  ∀ (p : Platform) (st : Strategy) (k iv a b : Bytes), p.firstCounter = .j0 → 16 ≤ b.length →
    let c0 := sessionAad a (sessionInit p st k iv)
    let r := sessionCrypt p .encrypt b c0
    let fin := sessionTag p r.1
    Block.ofBytes (blockAt r.2 0) ^^^ Block.ofBytes (blockAt b 0) ^^^ fin.2 = fin.1.y

/-- R34, R35, R36, R95, R200, R201: the numeric codes. -/
def Obligations.NumericCodes : Prop :=
  (∀ ph : Phase, ph.code.toNat = match ph with
    | .uninitialized => 0
    | .initialized => 1
    | .aadPhase => 2
    | .cipherPhase => 3
    | .finalized => 4) ∧
  dirCode none = 0#2 ∧ dirCode (some .encrypt) = 1#2 ∧ dirCode (some .decrypt) = 2#2 ∧
  stratCode .reference = 0#1 ∧ stratCode .table = 1#1 ∧
  statusCode .ok = 0x00#8 ∧ statusCode .validationError = 0x01#8 ∧ statusCode .authenticationFailure = 0x02#8 ∧
  subCode none = 0x00#8 ∧
  [SubCode.badOpcode, .reservedBits, .badOperands, .badKeyLength, .badIvLength, .badAadLength, .badDataLength,
    .badTagLength, .outOfSequence, .aadAlreadySet, .directionMixed, .ghNotInitialized].map
      (fun sub => (subCode (some sub)).toNat) = [1, 2, 3, 4, 5, 6, 7, 8, 9, 10, 11, 12]

/-! ## Runs (70_reset_and_hazards.md R235, R247) -/

/-- Every run starts with a record that agrees with its instance, and every step of a run, from whatever record, keeps it so:
the sessions that the host's duties speak of (R216, R235) are those the core has run. For length fields past the bounds of
R15 the length block is that of log entry 14. -/
def Obligations.RunRecordsSessions : Prop :=
  (∀ es : List HostEvent, (Run.launch es).Recorded) ∧ ∀ x : Run, x.Recorded → x.advance.Recorded
end

