-- ==== Sys2Proof/Laws/Bytes.lean ====
section
/-! SUPPORT. Big-endian bytes and numbers, and the block partition of a byte string. -/

namespace Sys2Proof

theorem intBE_foldl (b : Bytes) (n : Nat) :
    b.foldl (fun acc x => 256 * acc + x.toNat) n = n * 256 ^ b.length + intBE b := by
  induction b generalizing n with
  | nil => simp [intBE]
  | cons x b ih =>
    simp only [intBE, List.foldl_cons, List.length_cons] at *
    rw [ih, ih (256 * 0 + x.toNat)]
    ring

@[simp] theorem intBE_nil : intBE [] = 0 := rfl

theorem intBE_cons (x : Byte) (b : Bytes) : intBE (x :: b) = x.toNat * 256 ^ b.length + intBE b := by
  rw [intBE, List.foldl_cons, intBE_foldl]
  simp

theorem intBE_append (a b : Bytes) : intBE (a ++ b) = intBE a * 256 ^ b.length + intBE b := by
  rw [intBE, List.foldl_append, intBE_foldl]
  rfl

theorem intBE_lt (b : Bytes) : intBE b < 256 ^ b.length := by
  induction b with
  | nil => simp
  | cons x b ih =>
    rw [intBE_cons, List.length_cons, pow_succ]
    have hx : x.toNat < 256 := x.isLt
    nlinarith [hx, ih, Nat.mul_le_mul_right (256 ^ b.length) (Nat.succ_le_of_lt hx)]

@[simp] theorem length_beBytes (n v : Nat) : (beBytes n v).length = n := by
  induction n with
  | zero => rfl
  | succ n ih => simp [beBytes, ih]

theorem intBE_beBytes (n v : Nat) : intBE (beBytes n v) = v % 256 ^ n := by
  induction n with
  | zero => simp [beBytes, Nat.mod_one]
  | succ n ih =>
    rw [beBytes, intBE_cons, ih, length_beBytes, BitVec.toNat_ofNat]
    rw [show (2 : Nat) ^ 8 = 256 by norm_num, Nat.mod_pow_succ]
    ring

theorem beBytes_mod (n v : Nat) : beBytes n (v % 256 ^ n) = beBytes n v := by
  have key : ∀ m k : Nat, m ≤ k → beBytes m (v % 256 ^ k) = beBytes m v := by
    intro m
    induction m with
    | zero => intro k _; rfl
    | succ m ih =>
      intro k hk
      rw [beBytes, beBytes, ih k (by omega)]
      congr 1
      apply BitVec.eq_of_toNat_eq
      simp only [BitVec.toNat_ofNat]
      obtain ⟨j, rfl⟩ : ∃ j, k = m + (j + 1) := ⟨k - m - 1, by omega⟩
      rw [pow_add, Nat.mod_mul_right_div_self]
      exact Nat.mod_mod_of_dvd _ (by rw [pow_succ]; exact Dvd.intro_left _ rfl)
  exact key n n le_rfl

theorem beBytes_intBE (b : Bytes) : beBytes b.length (intBE b) = b := by
  induction b with
  | nil => rfl
  | cons x b ih =>
    have hlt := intBE_lt b
    rw [List.length_cons, beBytes, intBE_cons]
    congr 1
    · apply BitVec.eq_of_toNat_eq
      rw [Nat.add_comm, Nat.add_mul_div_right _ _ (Nat.pos_of_ne_zero (by positivity)), Nat.div_eq_of_lt hlt]
      simp
    · rw [← beBytes_mod, Nat.mul_add_mod_of_lt' hlt, ih]
where
  Nat.mul_add_mod_of_lt' {a m r : Nat} (h : r < m) : (a * m + r) % m = r := by
    rw [Nat.mul_comm, Nat.mul_add_mod, Nat.mod_eq_of_lt h]

@[simp] theorem length_toBytes (b : Block) : b.toBytes.length = 16 := length_beBytes _ _

@[simp] theorem ofBytes_toBytes (b : Block) : Block.ofBytes b.toBytes = b := by
  apply BitVec.eq_of_toNat_eq
  rw [Block.ofBytes, Block.toBytes, intBE_beBytes, BitVec.toNat_ofNat]
  have hb : b.toNat < 256 ^ 16 := lt_of_lt_of_eq b.isLt (by norm_num)
  rw [Nat.mod_eq_of_lt hb]
  exact Nat.mod_eq_of_lt b.isLt

theorem toBytes_ofBytes (b : Bytes) (h : b.length = 16) : (Block.ofBytes b).toBytes = b := by
  have hlt := intBE_lt b
  rw [h] at hlt
  have hmod : intBE b % 2 ^ 128 = intBE b := Nat.mod_eq_of_lt (by norm_num at hlt ⊢; exact hlt)
  rw [Block.toBytes, Block.ofBytes, BitVec.toNat_ofNat, hmod, ← h]
  exact beBytes_intBE b

theorem toBytes_inj {a b : Block} (h : a.toBytes = b.toBytes) : a = b := by
  rw [← ofBytes_toBytes a, h, ofBytes_toBytes]

end Sys2Proof

namespace Sys2Proof.Machine

@[simp] theorem blocks_nil : blocks [] = [] := rfl

theorem blockCount_of_pos {n : Nat} (h : 0 < n) : blockCount n = blockCount (n - 16) + 1 := by
  unfold blockCount
  omega

/-- The first block of a byte string that is not empty, and the blocks of the rest (R67). -/
theorem blocks_of_ne_nil {d : Bytes} (h : d ≠ []) : blocks d = d.take 16 :: blocks (d.drop 16) := by
  have hpos : 0 < d.length := List.length_pos_iff.mpr h
  rw [blocks, blockCount_of_pos hpos, takeBlocks, blocks, List.length_drop]

theorem length_takeBlocks (m : Nat) (d : Bytes) : (takeBlocks m d).length = m := by
  induction m generalizing d with
  | zero => rfl
  | succ m ih => simp [takeBlocks, ih]

@[simp] theorem length_blocks (d : Bytes) : (blocks d).length = blockCount d.length := length_takeBlocks _ _

theorem blocks_append {d e : Bytes} (h : d.length % 16 = 0) : blocks (d ++ e) = blocks d ++ blocks e := by
  have key : ∀ (n : Nat) (d : Bytes), d.length = 16 * n → blocks (d ++ e) = blocks d ++ blocks e := by
    intro n
    induction n with
    | zero => intro d hd; simp [List.eq_nil_of_length_eq_zero (by omega : d.length = 0)]
    | succ n ih =>
      intro d hd
      have hne : d ≠ [] := by rintro rfl; simp at hd
      rw [blocks_of_ne_nil hne, blocks_of_ne_nil (d := d ++ e) (by simp [hne]),
        List.take_append_of_le_length (by omega), List.drop_append_of_le_length (by omega),
        ih (d.drop 16) (by rw [List.length_drop]; omega), List.cons_append]
  exact key (d.length / 16) d (by omega)

theorem takeBlocks_getElem? (m : Nat) (d : Bytes) {j : Nat} (h : j < m) :
    (takeBlocks m d)[j]? = some (blockAt d j) := by
  induction m generalizing d j with
  | zero => omega
  | succ m ih =>
    cases j with
    | zero => simp [takeBlocks, blockAt]
    | succ j =>
      rw [takeBlocks, List.getElem?_cons_succ, ih _ (by omega), blockAt, blockAt, List.drop_drop,
        show 16 + 16 * j = 16 * (j + 1) by omega]

/-- The blocks are the slices `blockAt` of the byte string, in order (R67). -/
theorem blocks_eq_map (d : Bytes) : blocks d = (List.range (blockCount d.length)).map (blockAt d) := by
  apply List.ext_getElem?
  intro j
  by_cases h : j < blockCount d.length
  · rw [blocks, takeBlocks_getElem? _ _ h]
    simp [h]
  · rw [List.getElem?_eq_none (by simpa using h), List.getElem?_eq_none (by simpa using h)]

theorem length_xorKeystream (b : Bytes) (ks : Block) : (xorKeystream b ks).length = min b.length 16 := by
  simp [xorKeystream]

theorem blockAt_zero (d : Bytes) : blockAt d 0 = d.take 16 := rfl

theorem blockAt_succ (d : Bytes) (j : Nat) : blockAt d (j + 1) = blockAt (d.drop 16) j := by
  rw [blockAt, blockAt, List.drop_drop, show 16 + 16 * j = 16 * (j + 1) by omega]

/-- Past a first part of one whole block, the blocks are those of the rest. -/
theorem blockAt_append_succ {o e : Bytes} (h : o.length = 16) (j : Nat) :
    blockAt (o ++ e) (j + 1) = blockAt e j := by
  rw [blockAt_succ, List.drop_left' h]

end Sys2Proof.Machine
end

