-- ==== Sys2Proof/Laws/Decode.lean ====
section
/-! SUPPORT. The fields of a command word and the opcode map (30_encoding.md R91, R98). -/

namespace Sys2Proof

@[simp] theorem ofCode_code (o : Opcode) : Opcode.ofCode o.code = some o := by cases o <;> decide

/-- The opcode map gives each number to one opcode. -/
theorem code_injective {o o' : Opcode} (h : o.code = o'.code) : o = o' := by
  have h' := congrArg Opcode.ofCode h
  simpa using h'

@[simp] theorem opcField_commandWord (o : Opcode) (s : Strategy) : opcField (commandWord o s) = o.code := by
  cases o <;> cases s <;> decide

@[simp] theorem strategyBit_commandWord (o : Opcode) (s : Strategy) : strategyBit (commandWord o s) = s.bit := by
  cases o <;> cases s <;> decide

@[simp] theorem reservedField_commandWord (o : Opcode) (s : Strategy) :
    reservedField (commandWord o s) = 0#7 := by
  cases o <;> cases s <;> decide

@[simp] theorem ofBit_bit (s : Strategy) : Strategy.ofBit s.bit = s := by cases s <;> rfl

@[simp] theorem bit_ofBit (b : Bool) : (Strategy.ofBit b).bit = b := by cases b <;> rfl

@[simp] theorem fixedOperand_toBytes (b : Block) : fixedOperand b.toBytes = some b := by
  simp [fixedOperand]

/-- A decoded fixed operand is 16 bytes long and is written back as it was read. -/
theorem fixedOperand_some {b : Bytes} {x : Block} (h : fixedOperand b = some x) :
    b.length = 16 ∧ x.toBytes = b := by
  unfold fixedOperand at h
  split at h
  · rename_i hl
    injection h with h
    exact ⟨hl, h ▸ toBytes_ofBytes b hl⟩
  · cases h

/-- A word of the opcode map is decoded by its operands alone (R94, R98). -/
theorem decode_word {o : Opcode} {s : Strategy} (h : s.bit = true → o.usesStrategy = true) (ops : List Bytes) :
    decode ⟨commandWord o s, ops⟩ =
      match decodeOperands o s ops with
      | none => .error .badOperands
      | some i => .ok i := by
  have hno : ¬ (reservedField (commandWord o s) ≠ 0#7 ∨ (s.bit = true ∧ o.usesStrategy = false)) := by
    simpa using h
  simp only [decode, opcField_commandWord, ofCode_code, strategyBit_commandWord, ofBit_bit]
  refine (if_neg hno).trans ?_
  cases decodeOperands o s ops <;> rfl

theorem toNat_opcField (cw : BitVec 16) : (opcField cw).toNat = cw.toNat % 256 := by simp [opcField]

theorem toNat_reservedField (cw : BitVec 16) : (reservedField cw).toNat = cw.toNat / 512 := by
  simp only [reservedField, BitVec.extractLsb'_toNat, Nat.shiftRight_eq_div_pow]
  have := cw.isLt
  omega

theorem strategyBit_eq (cw : BitVec 16) : strategyBit cw = decide (cw.toNat / 256 % 2 = 1) := by
  simp [strategyBit, BitVec.getLsbD, Nat.testBit, Nat.shiftRight_eq_div_pow, Nat.mod_two_bne_zero]
  rfl

end Sys2Proof
end

