-- ==== Sys2Proof/Laws/State.lean ====
section
/-! SUPPORT. What every update of the state leaves in every field, each true by unfolding the update. -/

namespace Sys2Proof.Machine

variable (s : State) (c : GcmContext) (g : GhashContext) (es : List HostEvent) (r : Response) (sub : SubCode)

@[simp] theorem setC_c : (s.setC c).c = c := rfl
@[simp] theorem setC_g : (s.setC c).g = s.g := rfl
@[simp] theorem setC_pending : (s.setC c).pending = s.pending := rfl
@[simp] theorem setC_responses : (s.setC c).responses = s.responses := rfl

@[simp] theorem setG_c : (s.setG g).c = s.c := rfl
@[simp] theorem setG_g : (s.setG g).g = g := rfl
@[simp] theorem setG_pending : (s.setG g).pending = s.pending := rfl
@[simp] theorem setG_responses : (s.setG g).responses = s.responses := rfl

@[simp] theorem setPending_c : (s.setPending es).c = s.c := rfl
@[simp] theorem setPending_g : (s.setPending es).g = s.g := rfl
@[simp] theorem setPending_pending : (s.setPending es).pending = es := rfl
@[simp] theorem setPending_responses : (s.setPending es).responses = s.responses := rfl

@[simp] theorem respond_c : (s.respond r).c = s.c := rfl
@[simp] theorem respond_g : (s.respond r).g = s.g := rfl
@[simp] theorem respond_pending : (s.respond r).pending = s.pending := rfl
@[simp] theorem respond_responses : (s.respond r).responses = s.responses ++ [r] := rfl

@[simp] theorem raiseValidation_c : (s.raiseValidation sub).c = s.c := rfl
@[simp] theorem raiseValidation_g : (s.raiseValidation sub).g = s.g := rfl
@[simp] theorem raiseValidation_pending : (s.raiseValidation sub).pending = s.pending := rfl
@[simp] theorem raiseValidation_responses :
    (s.raiseValidation sub).responses = s.responses ++ [validationResponse sub] := rfl

@[simp] theorem resetEvent_c : s.resetEvent.c = GcmContext.reset := rfl
@[simp] theorem resetEvent_g : s.resetEvent.g = GhashContext.reset := rfl
@[simp] theorem resetEvent_pending : s.resetEvent.pending = s.pending := rfl
@[simp] theorem resetEvent_responses : s.resetEvent.responses = s.responses := rfl

@[simp] theorem sendNext_pending (e : HostEvent) : (s.sendNext e).pending = e :: s.pending := rfl

@[simp] theorem okResponse_status (out : Bytes) : (okResponse out).status = .ok := rfl
@[simp] theorem okResponse_sub (out : Bytes) : (okResponse out).sub = none := rfl
@[simp] theorem okResponse_out (out : Bytes) : (okResponse out).out = out := rfl
@[simp] theorem validationResponse_status : (validationResponse sub).status = .validationError := rfl
@[simp] theorem validationResponse_sub : (validationResponse sub).sub = some sub := rfl
@[simp] theorem validationResponse_out : (validationResponse sub).out = [] := rfl
@[simp] theorem authFailureResponse_status (n : Nat) :
    (authFailureResponse n).status = .authenticationFailure := rfl
@[simp] theorem authFailureResponse_sub (n : Nat) : (authFailureResponse n).sub = none := rfl
@[simp] theorem authFailureResponse_out (n : Nat) : (authFailureResponse n).out = zeros n := rfl

end Sys2Proof.Machine
end

