-- ==== Sys2Proof/Laws/Ops.lean ====
section
/-! SUPPORT. What the shared operations of a command can do: the first failing check decides, and only then comes the
effect (60_exceptions.md R205). -/

namespace Sys2Proof.Machine

@[simp] theorem firstFailure_nil : firstFailure [] = none := rfl

@[simp] theorem firstFailure_cons_none (cs : List (Option SubCode)) :
    firstFailure (none :: cs) = firstFailure cs := rfl

@[simp] theorem firstFailure_cons_some (sub : SubCode) (cs : List (Option SubCode)) :
    firstFailure (some sub :: cs) = some sub := rfl

/-- All checks pass: the command has its effect. -/
theorem checked_of_pass {cs : List (Option SubCode)} (h : firstFailure cs = none) (effect : State → State)
    (s : State) : checked cs effect s = .next (effect s) := by
  simp only [checked, h]

/-- A check fails: the ValidationError it names, and nothing else. -/
theorem checked_of_fail {cs : List (Option SubCode)} {sub : SubCode} (h : firstFailure cs = some sub)
    (effect : State → State) (s : State) : checked cs effect s = .next (s.raiseValidation sub) := by
  simp only [checked, h]

/-- Everything a checked command can do. -/
theorem checked_cases {cs : List (Option SubCode)} {effect : State → State} {s t : State}
    (h : checked cs effect s = .next t) :
    (∃ sub, firstFailure cs = some sub ∧ t = s.raiseValidation sub) ∨
      (firstFailure cs = none ∧ t = effect s) := by
  unfold checked at h
  split at h
  · rename_i sub hs
    exact .inl ⟨sub, hs, by injection h with h; exact h.symm⟩
  · rename_i hs
    exact .inr ⟨hs, by injection h with h; exact h.symm⟩

/-! The checks that pass, as conditions on the state and the operands. -/

theorem keyLengthCheck_none {k : Bytes} (h : k.length = Config.keyBytes) : keyLengthCheck k = none := by
  simp only [keyLengthCheck, h, if_true]

theorem keyLengthCheck_some {k : Bytes} (h : k.length ≠ Config.keyBytes) :
    keyLengthCheck k = some .badKeyLength := by
  simp only [keyLengthCheck, h, if_false]

theorem ivLengthCheck_none {iv : Bytes} (h0 : 0 < iv.length) (h : iv.length ≤ Config.ivMaxBytes) :
    ivLengthCheck iv = none := by
  unfold ivLengthCheck
  rw [if_neg (by omega)]

theorem aadLengthCheck_none {a : Bytes} (h : a.length ≤ Config.aadMaxBytes) : aadLengthCheck a = none := by
  unfold aadLengthCheck
  rw [if_neg (by omega)]

theorem dataLengthCheck_none {n : Nat} (h : n ≤ Config.cMaxBytes) : dataLengthCheck n = none := by
  unfold dataLengthCheck
  rw [if_neg (by omega)]

theorem tagLengthCheck_none {t : Bytes} (h : t.length = Config.tagBytes) : tagLengthCheck t = none := by
  simp only [tagLengthCheck, h, if_true]

theorem ghSequenceCheck_none {g : GhashContext} (h : g.valid = true) : ghSequenceCheck g = none := by
  simp only [ghSequenceCheck, h, if_true]

theorem ghSequenceCheck_some {g : GhashContext} (h : g.valid = false) :
    ghSequenceCheck g = some .ghNotInitialized := by
  simp [ghSequenceCheck, h]

end Sys2Proof.Machine
end

