-- ==== Sys2Proof/Laws/Exec.lean ====
section
/-! SUPPORT. Every command as its checks and its effect, and what a step does with what the host has sent. With
`checked_cases` they say everything a command can do. -/

namespace Sys2Proof.Machine

theorem exec_gfMul (x y : Block) (s : State) :
    exec (.gfMul x y) s = checked [] (fun s => s.respond (okResponse (gfmul x y).toBytes)) s := rfl

theorem exec_ghInit (st : Strategy) (h : Block) (s : State) :
    exec (.ghInit st h) s =
      checked []
        (fun s => (s.setG { valid := true, strat := st, h := h, y := 0, tbl := tableFor st h }).respond
          (okResponse [])) s := rfl

theorem exec_ghUpdate (d : Bytes) (s : State) :
    exec (.ghUpdate d) s =
      checked [ghSequenceCheck s.g]
        (fun s => (s.setG { s.g with y := ghashUpdate s.g.strat s.g.y s.g.h s.g.tbl d }).respond (okResponse [])) s :=
  rfl

theorem exec_ghFinal (s : State) :
    exec .ghFinal s = checked [ghSequenceCheck s.g] (fun s => s.respond (okResponse s.g.y.toBytes)) s := rfl

theorem exec_ghReset (s : State) :
    exec .ghReset s =
      checked [ghSequenceCheck s.g] (fun s => (s.setG { s.g with y := 0 }).respond (okResponse [])) s := rfl

theorem exec_ghOneshot (st : Strategy) (h : Block) (a c : Bytes) (s : State) :
    exec (.ghOneshot st h a c) s =
      checked [aadLengthCheck a, dataLengthCheck c.length]
        (fun s => s.respond (okResponse (ghash st h (tableFor st h) a c).toBytes)) s := rfl

theorem exec_gcmInit (st : Strategy) (k iv : Bytes) (s : State) :
    exec (.gcmInit st k iv) s =
      checked [gcmSequenceCheck .init s.c, keyLengthCheck k, ivLengthCheck iv]
        (fun s => (s.setC (sessionInit Config.platform st k iv)).respond (okResponse [])) s := rfl

theorem exec_gcmAad (a : Bytes) (s : State) :
    exec (.gcmAad a) s =
      checked [gcmSequenceCheck .aad s.c, aadLengthCheck a]
        (fun s => (s.setC (sessionAad a s.c)).respond (okResponse [])) s := rfl

theorem exec_gcmEnc (d : Bytes) (s : State) :
    exec (.gcmEnc d) s =
      checked [gcmSequenceCheck .enc s.c, dataLengthCheck (s.c.cLen.toNat + d.length)]
        (fun s => (s.setC (sessionCrypt Config.platform .encrypt d s.c).1).respond
          (okResponse (sessionCrypt Config.platform .encrypt d s.c).2)) s := rfl

theorem exec_gcmDec (d : Bytes) (s : State) :
    exec (.gcmDec d) s =
      checked [gcmSequenceCheck .dec s.c, dataLengthCheck (s.c.cLen.toNat + d.length)]
        (fun s => (s.setC (sessionCrypt Config.platform .decrypt d s.c).1).respond
          (okResponse (sessionCrypt Config.platform .decrypt d s.c).2)) s := rfl

theorem exec_gcmTag (s : State) :
    exec .gcmTag s =
      checked [gcmSequenceCheck .tag s.c]
        (fun s => (s.setC (sessionTag Config.platform s.c).1).respond
          (okResponse (sessionTag Config.platform s.c).2.toBytes)) s := rfl

theorem exec_gcmVerifyDec (st : Strategy) (k iv a c t : Bytes) (s : State) :
    exec (.gcmVerifyDec st k iv a c t) s =
      checked
        [gcmSequenceCheck .verifyDec s.c, keyLengthCheck k, ivLengthCheck iv, aadLengthCheck a,
          dataLengthCheck c.length, tagLengthCheck t]
        (fun s => (s.setC (verifyDecEffect Config.platform st k iv a c t).1).respond
          (verifyDecEffect Config.platform st k iv a c t).2) s := rfl

theorem exec_gcmAbort (s : State) :
    exec .gcmAbort s =
      checked [gcmSequenceCheck .abort s.c] (fun s => (s.setC abortedContext).respond (okResponse [])) s := rfl

/-! The sequence checks of the GCM commands that pass. -/

theorem initSequence_none {c : GcmContext} (h : c.phase = .uninitialized ∨ c.phase = .finalized) :
    gcmSequenceCheck .init c = none := by
  rcases h with h | h <;> simp [gcmSequenceCheck, gcmSequence, failureOf, h]

theorem verifyDecSequence_none {c : GcmContext} (h : c.phase = .uninitialized ∨ c.phase = .finalized) :
    gcmSequenceCheck .verifyDec c = none := by
  rcases h with h | h <;> simp [gcmSequenceCheck, gcmSequence, failureOf, h]

theorem aadSequence_none {c : GcmContext} (h : c.phase = .initialized) : gcmSequenceCheck .aad c = none := by
  simp [gcmSequenceCheck, gcmSequence, failureOf, h]

theorem encSequence_none {c : GcmContext}
    (h : c.phase = .initialized ∨ c.phase = .aadPhase ∨ (c.phase = .cipherPhase ∧ c.dir = some .encrypt)) :
    gcmSequenceCheck .enc c = none := by
  rcases h with h | h | ⟨h, hd⟩ <;> simp [gcmSequenceCheck, gcmSequence, cipherSequence, failureOf, *]

theorem decSequence_none {c : GcmContext}
    (h : c.phase = .initialized ∨ c.phase = .aadPhase ∨ (c.phase = .cipherPhase ∧ c.dir = some .decrypt)) :
    gcmSequenceCheck .dec c = none := by
  rcases h with h | h | ⟨h, hd⟩ <;> simp [gcmSequenceCheck, gcmSequence, cipherSequence, failureOf, *]

theorem tagSequence_none {c : GcmContext} (h : c.phase = .cipherPhase) : gcmSequenceCheck .tag c = none := by
  simp [gcmSequenceCheck, gcmSequence, failureOf, h]

/-! One step, by what the host has sent. -/

theorem step_idle {s : State} (h : s.pending = []) : step s = .next s := by
  simp only [step, h]

theorem step_event {s : State} {e : HostEvent} {rest : List HostEvent} (h : s.pending = e :: rest) :
    step s = handleEvent e (s.setPending rest) := by
  simp only [step, h]

end Sys2Proof.Machine
end

