-- ==== Sys2Proof/Laws/Hash.lean ====
section
/-! SUPPORT. The functions of the GHASH accumulators and of the session helpers, field by field. -/

namespace Sys2Proof.Machine

@[simp] theorem mulH_reference (x h : Block) (t : Table) : mulH .reference x h t = gfmul x h := rfl

@[simp] theorem tableFor_reference (h : Block) : tableFor .reference h = .invalid := rfl

@[simp] theorem tableFor_table (h : Block) : tableFor .table h = .valid h := rfl

@[simp] theorem ghashUpdate_nil (s : Strategy) (y h : Block) (t : Table) : ghashUpdate s y h t [] = y := rfl

theorem ghashUpdate_of_ne_nil (s : Strategy) (y h : Block) (t : Table) {d : Bytes} (hd : d ≠ []) :
    ghashUpdate s y h t d = ghashUpdate s (absorb s h t y (d.take 16)) h t (d.drop 16) := by
  rw [ghashUpdate, blocks_of_ne_nil hd, List.foldl_cons, ghashUpdate]

variable (p : Platform) (s : Strategy) (k iv a : Bytes) (c : GcmContext) (b : Bytes) (d : Direction)

@[simp] theorem sessionInit_phase : (sessionInit p s k iv).phase = .initialized := rfl
@[simp] theorem sessionInit_dir : (sessionInit p s k iv).dir = none := rfl
@[simp] theorem sessionInit_strat : (sessionInit p s k iv).strat = s := rfl
@[simp] theorem sessionInit_key : (sessionInit p s k iv).key = Key.ofBytes k := rfl
@[simp] theorem sessionInit_h : (sessionInit p s k iv).h = p.cipher (Key.ofBytes k) 0 := rfl
@[simp] theorem sessionInit_y : (sessionInit p s k iv).y = 0 := rfl
@[simp] theorem sessionInit_tbl : (sessionInit p s k iv).tbl = tableFor s (p.cipher (Key.ofBytes k) 0) := rfl
@[simp] theorem sessionInit_aadLen : (sessionInit p s k iv).aadLen = 0 := rfl
@[simp] theorem sessionInit_cLen : (sessionInit p s k iv).cLen = 0 := rfl
@[simp] theorem sessionInit_ctr :
    (sessionInit p s k iv).ctr = firstCounterBlock p (sessionInit p s k iv).j0 := rfl

@[simp] theorem sessionAad_phase : (sessionAad a c).phase = .aadPhase := rfl
@[simp] theorem sessionAad_dir : (sessionAad a c).dir = c.dir := rfl
@[simp] theorem sessionAad_strat : (sessionAad a c).strat = c.strat := rfl
@[simp] theorem sessionAad_key : (sessionAad a c).key = c.key := rfl
@[simp] theorem sessionAad_h : (sessionAad a c).h = c.h := rfl
@[simp] theorem sessionAad_j0 : (sessionAad a c).j0 = c.j0 := rfl
@[simp] theorem sessionAad_ctr : (sessionAad a c).ctr = c.ctr := rfl
@[simp] theorem sessionAad_y : (sessionAad a c).y = ghashUpdate c.strat c.y c.h c.tbl a := rfl
@[simp] theorem sessionAad_tbl : (sessionAad a c).tbl = c.tbl := rfl
@[simp] theorem sessionAad_aadLen : (sessionAad a c).aadLen = BitVec.ofNat 64 a.length := rfl
@[simp] theorem sessionAad_cLen : (sessionAad a c).cLen = c.cLen := rfl

@[simp] theorem absorbBlock_ctr : (c.absorbBlock b).ctr = c.ctr := rfl
@[simp] theorem absorbBlock_key : (c.absorbBlock b).key = c.key := rfl
@[simp] theorem absorbBlock_y : (c.absorbBlock b).y = absorb c.strat c.h c.tbl c.y b := rfl

@[simp] theorem cryptBlocks_nil : cryptBlocks p d [] c = (c, []) := rfl

theorem cryptBlocks_append (bs bs' : List Bytes) :
    cryptBlocks p d (bs ++ bs') c =
      ((cryptBlocks p d bs' (cryptBlocks p d bs c).1).1,
        (cryptBlocks p d bs c).2 ++ (cryptBlocks p d bs' (cryptBlocks p d bs c).1).2) := by
  induction bs generalizing c with
  | nil => rfl
  | cons b bs ih => simp only [List.cons_append, cryptBlocks, ih, List.append_assoc]

@[simp] theorem sessionTag_phase : (sessionTag p c).1.phase = .finalized := rfl
@[simp] theorem sessionTag_key : (sessionTag p c).1.key = c.key := rfl
@[simp] theorem sessionTag_h : (sessionTag p c).1.h = c.h := rfl
@[simp] theorem sessionTag_j0 : (sessionTag p c).1.j0 = c.j0 := rfl
@[simp] theorem sessionTag_ctr : (sessionTag p c).1.ctr = c.ctr := rfl
@[simp] theorem sessionTag_y :
    (sessionTag p c).1.y = mulH c.strat (c.y ^^^ lenBlock c.aadLen.toNat c.cLen.toNat) c.h c.tbl := rfl

end Sys2Proof.Machine
end

