-- ==== Sys2Proof/Laws/PerInstr.lean ====
section
/-! SUPPORT. Statements about every command as syntax, one lemma per constructor. -/

namespace Sys2Proof

/-- The encoded word of the command names its opcode, has its reserved bits zero, carries the strategy of the command, and
has S = 1 only on an opcode with a strategy bit; the operands are as many as the format says (30_encoding.md R91 to R94). -/
def Laws.WordFields.Statement (i : Instr) : Prop :=
  opcField (encode i).cw = i.opcode.code ∧ reservedField (encode i).cw = 0#7 ∧
    strategyBit (encode i).cw = i.strategy.bit ∧
    (strategyBit (encode i).cw = true → i.opcode.usesStrategy = true) ∧
    (encode i).ops.length = i.opcode.format.zeroOperands.length

theorem Laws.WordFields.of_strategy {i : Instr} (h : i.strategy.bit = true → i.opcode.usesStrategy = true)
    (hl : (encode i).ops.length = i.opcode.format.zeroOperands.length) : Laws.WordFields.Statement i := by
  refine ⟨?_, ?_, ?_, ?_, hl⟩
  · simp [encode]
  · simp [encode]
  · simp [encode]
  · simpa [encode] using h

theorem Laws.WordFields.gfMul (x y : Block) : Laws.WordFields.Statement (.gfMul x y) := of_strategy nofun rfl
theorem Laws.WordFields.ghInit (s : Strategy) (h : Block) : Laws.WordFields.Statement (.ghInit s h) :=
  of_strategy (fun _ => rfl) rfl
theorem Laws.WordFields.ghUpdate (d : Bytes) : Laws.WordFields.Statement (.ghUpdate d) := of_strategy nofun rfl
theorem Laws.WordFields.ghFinal : Laws.WordFields.Statement .ghFinal := of_strategy nofun rfl
theorem Laws.WordFields.ghReset : Laws.WordFields.Statement .ghReset := of_strategy nofun rfl
theorem Laws.WordFields.ghOneshot (s : Strategy) (h : Block) (a c : Bytes) :
    Laws.WordFields.Statement (.ghOneshot s h a c) := of_strategy (fun _ => rfl) rfl
theorem Laws.WordFields.gcmInit (s : Strategy) (k iv : Bytes) : Laws.WordFields.Statement (.gcmInit s k iv) :=
  of_strategy (fun _ => rfl) rfl
theorem Laws.WordFields.gcmAad (a : Bytes) : Laws.WordFields.Statement (.gcmAad a) := of_strategy nofun rfl
theorem Laws.WordFields.gcmEnc (p : Bytes) : Laws.WordFields.Statement (.gcmEnc p) := of_strategy nofun rfl
theorem Laws.WordFields.gcmDec (c : Bytes) : Laws.WordFields.Statement (.gcmDec c) := of_strategy nofun rfl
theorem Laws.WordFields.gcmTag : Laws.WordFields.Statement .gcmTag := of_strategy nofun rfl
theorem Laws.WordFields.gcmVerifyDec (s : Strategy) (k iv a c t : Bytes) :
    Laws.WordFields.Statement (.gcmVerifyDec s k iv a c t) := of_strategy (fun _ => rfl) rfl
theorem Laws.WordFields.gcmAbort : Laws.WordFields.Statement .gcmAbort := of_strategy nofun rfl

end Sys2Proof
end

