-- ==== Sys2Proof/Laws/Run.lean ====
section
/-! SUPPORT. What a step of a run does to the instance and to the record of its sessions. -/

namespace Sys2Proof.Machine

@[simp] theorem launch_state (es : List HostEvent) : (Run.launch es).state = State.reset.setPending es := rfl
@[simp] theorem launch_sessions (es : List HostEvent) : (Run.launch es).sessions = [] := rfl

@[simp] theorem advanceBy_zero (x : Run) : x.advanceBy 0 = x := rfl
@[simp] theorem advanceBy_succ (n : Nat) (x : Run) : x.advanceBy (n + 1) = x.advance.advanceBy n := rfl

/-- A run steps as its instance does. -/
theorem advance_of_step {x : Run} {t : State} (h : step x.state = .next t) :
    x.advance = ⟨t, recordStep x.state t x.sessions⟩ := by
  simp only [Run.advance, h]

theorem recordStep_idle {s t : State} {log : List SessionRecord} (h : s.pending = []) :
    recordStep s t log = log := by
  simp only [recordStep, h]

theorem recordStep_reset {s t : State} {log : List SessionRecord} {rest : List HostEvent}
    (h : s.pending = .reset :: rest) : recordStep s t log = log := by
  simp only [recordStep, h]

theorem recordStep_undecoded {s t : State} {log : List SessionRecord} {cmd : Command} {rest : List HostEvent}
    {sub : SubCode} (h : s.pending = .command cmd :: rest) (hd : decode cmd = .error sub) :
    recordStep s t log = log := by
  simp only [recordStep, h, hd]

/-- A command that decodes is recorded with the response it got. -/
theorem recordStep_command {s t : State} {log : List SessionRecord} {cmd : Command} {rest : List HostEvent}
    {i : Instr} {r : Response} (h : s.pending = .command cmd :: rest) (hd : decode cmd = .ok i)
    (hr : t.responses = s.responses ++ [r]) : recordStep s t log = recordCommand i r log := by
  simp only [recordStep, h, hd, hr, List.getLast?_append, List.getLast?_singleton, Option.some_or]

theorem textAfter_refused {i : Instr} {r : Response} {x : SessionText} (h : r.status = .validationError) :
    textAfter i r x = x := if_pos h

theorem recordCommand_refused {i : Instr} {r : Response} {log : List SessionRecord}
    (h : r.status = .validationError) : recordCommand i r log = log := if_pos h

end Sys2Proof.Machine
end

