-- ==== Sys2Proof/Laws/Session.lean ====
section
/-! SUPPORT. What the counter-mode pass can do: the output block by block, and the fields it leaves (42_gcm.md R153). -/

namespace Sys2Proof.Machine

/-- What GHASH absorbs in a pass: the output when encrypting, the input when decrypting (R153). -/
def hashedText (d : Direction) (input output : Bytes) : Bytes :=
  match d with
  | .encrypt => output
  | .decrypt => input

theorem hashedText_ne_nil {d : Direction} {i o : Bytes} (hi : i ≠ []) (ho : o ≠ []) : hashedText d i o ≠ [] := by
  cases d
  · exact ho
  · exact hi

/-- One block of the pass: the output, and the only two fields it writes (R153). -/
theorem cryptBlock_eq (p : Platform) (d : Direction) (b : Bytes) (c : GcmContext) :
    cryptBlock p d b c =
      ({ c with
          ctr := inc32 c.ctr
          y := absorb c.strat c.h c.tbl c.y (hashedText d b (xorKeystream b (p.cipher c.key c.ctr))) },
        xorKeystream b (p.cipher c.key c.ctr)) := by
  cases d <;> rfl

/-- What `cryptBlocks` over the blocks of `data` gives: output block j is input block j under the counter advanced j times,
C.CTR advances once per block, C.Y absorbs the ciphertext, and no other field changes (R153). -/
structure PassSpec (p : Platform) (d : Direction) (data : Bytes) (c : GcmContext) (r : GcmContext × Bytes) : Prop where
  length : r.2.length = data.length
  block : ∀ j : Nat, j < blockCount data.length →
    blockAt r.2 j = xorKeystream (blockAt data j) (p.cipher c.key (inc32^[j] c.ctr))
  context : r.1 =
    { c with
      ctr := inc32^[blockCount data.length] c.ctr
      y := ghashUpdate c.strat c.y c.h c.tbl (hashedText d data r.2) }

theorem PassSpec.nil (p : Platform) (d : Direction) (c : GcmContext) : PassSpec p d [] c (c, []) where
  length := rfl
  block := fun j hj => by simp [blockCount] at hj
  context := by cases d <;> simp [blockCount, hashedText]

/-- A first block, then the rest of the data. -/
theorem PassSpec.cons {p : Platform} {d : Direction} {data : Bytes} {c : GcmContext} {r : GcmContext × Bytes}
    (hd : data ≠ []) (h : PassSpec p d (data.drop 16) (cryptBlock p d (data.take 16) c).1 r) :
    PassSpec p d data c (r.1, (cryptBlock p d (data.take 16) c).2 ++ r.2) := by
  obtain ⟨hlen, hblock, hctx⟩ := h
  rw [cryptBlock_eq] at hblock hctx ⊢
  simp only at hblock hctx ⊢
  have hpos : 0 < data.length := List.length_pos_iff.mpr hd
  have hcount : blockCount data.length = blockCount (data.drop 16).length + 1 := by
    rw [List.length_drop]
    exact blockCount_of_pos hpos
  generalize ho : xorKeystream (data.take 16) (p.cipher c.key c.ctr) = o at *
  have holen : o.length = min 16 data.length := by
    rw [← ho, length_xorKeystream, List.length_take]
    omega
  have hrest : data.length ≤ 16 → r.2 = [] := fun hle =>
    List.eq_nil_of_length_eq_zero (by rw [hlen, List.length_drop]; omega)
  have htake : (o ++ r.2).take 16 = o := by
    rcases Nat.lt_or_ge 16 data.length with hgt | hle
    · exact List.take_left' (by omega)
    · rw [hrest hle, List.append_nil, List.take_of_length_le (by omega)]
  have hdrop : (o ++ r.2).drop 16 = r.2 := by
    rcases Nat.lt_or_ge 16 data.length with hgt | hle
    · exact List.drop_left' (by omega)
    · rw [hrest hle, List.append_nil, List.drop_of_length_le (by omega)]
  refine ⟨?_, ?_, ?_⟩
  · rw [List.length_append, hlen, holen, List.length_drop]
    omega
  · intro j hj
    cases j with
    | zero => rw [blockAt_zero, htake, ← ho, blockAt_zero, Function.iterate_zero, id]
    | succ j =>
      rw [blockAt_succ, hdrop, hblock j (by omega), blockAt_succ, Function.iterate_succ_apply]
  · have hne : o ≠ [] := by
      rintro rfl
      rw [List.length_nil] at holen
      omega
    simp only [hctx, hcount, Function.iterate_succ_apply]
    congr 1
    rw [ghashUpdate_of_ne_nil _ _ _ _ (hashedText_ne_nil (o := o ++ r.2) hd (by simp [hne]))]
    cases d
    · simp only [hashedText, htake, hdrop]
    · simp only [hashedText]

theorem cryptBlocks_spec (p : Platform) (d : Direction) (data : Bytes) (c : GcmContext) :
    PassSpec p d data c (cryptBlocks p d (blocks data) c) := by
  have key : ∀ (n : Nat) (data : Bytes) (c : GcmContext), data.length ≤ n →
      PassSpec p d data c (cryptBlocks p d (blocks data) c) := by
    intro n
    induction n with
    | zero =>
      intro data c hn
      rw [List.eq_nil_of_length_eq_zero (by omega : data.length = 0)]
      exact PassSpec.nil p d c
    | succ n ih =>
      intro data c hn
      by_cases hd : data = []
      · subst hd
        exact PassSpec.nil p d c
      · rw [blocks_of_ne_nil hd, cryptBlocks]
        exact PassSpec.cons hd (ih _ _ (by rw [List.length_drop]; omega))
  exact key data.length data c le_rfl

end Sys2Proof.Machine
end

