-- ==== Sys2Proof/Tests/Slice0.lean ====
section
/-! SUPPORT. Small tests: expected values are those of spec/95_test_vectors.md and spec/96_test_programs.md, by their ids, or
words written out bit by bit from 30_encoding.md; and witnesses that the hypotheses of the statements can be met. -/

namespace Sys2Proof.Tests

open Sys2Proof.Machine

/-! ## Well-formedness smoke -/

/-- An operand of 2^64 bytes does not fit its length prefix. -/
def tooLong : Bytes := List.replicate (2 ^ 64) 0#8

theorem length_tooLong : tooLong.length = 2 ^ 64 := List.length_replicate

theorem tooLong_refused : operandFits tooLong = false := by
  simp [operandFits, length_tooLong]

theorem test_wf_refuses_long_operand : Command.wf ⟨0x0011#16, [tooLong]⟩ = false := by
  simp [Command.wf, tooLong_refused]

theorem test_wf_refuses_256_operands : Command.wf ⟨0x0011#16, List.replicate 256 []⟩ = false := by
  decide +kernel

theorem test_wf_refuses_ghUpdate : (Instr.ghUpdate tooLong).wf = false := by
  simp [Instr.wf, Instr.freeOperands, tooLong_refused]

theorem test_wf_refuses_ghOneshot :
    (Instr.ghOneshot .table 0 tooLong []).wf = false ∧ (Instr.ghOneshot .table 0 [] tooLong).wf = false := by
  simp [Instr.wf, Instr.freeOperands, tooLong_refused]

theorem test_wf_refuses_gcmInit :
    (Instr.gcmInit .table tooLong []).wf = false ∧ (Instr.gcmInit .table [] tooLong).wf = false := by
  simp [Instr.wf, Instr.freeOperands, tooLong_refused]

theorem test_wf_refuses_gcm_data :
    (Instr.gcmAad tooLong).wf = false ∧ (Instr.gcmEnc tooLong).wf = false ∧
      (Instr.gcmDec tooLong).wf = false := by
  simp [Instr.wf, Instr.freeOperands, tooLong_refused]

theorem test_wf_refuses_gcmVerifyDec :
    (Instr.gcmVerifyDec .table tooLong [] [] [] []).wf = false ∧
      (Instr.gcmVerifyDec .table [] tooLong [] [] []).wf = false ∧
      (Instr.gcmVerifyDec .table [] [] tooLong [] []).wf = false ∧
      (Instr.gcmVerifyDec .table [] [] [] tooLong []).wf = false ∧
      (Instr.gcmVerifyDec .table [] [] [] [] tooLong).wf = false := by
  simp [Instr.wf, Instr.freeOperands, tooLong_refused]

theorem test_wf_accepts : (Instr.gcmInit .table [] [0x01#8]).wf = true := by decide

/-! ## Decoding: the words of R98 written out as RSV(7) S(1) OPC(8) -/

/-- 16 bytes 0x80 00 … 00, the field's one. -/
def oneBytes : Bytes := 0x80#8 :: zeros 15

theorem test_decode_gfMul : decode ⟨0b0000000_0_00000001#16, [oneBytes, zeros 16]⟩ =
    .ok (.gfMul 0x80000000000000000000000000000000#128 0) := rfl
theorem test_decode_ghInit : decode ⟨0b0000000_0_00010000#16, [oneBytes]⟩ =
    .ok (.ghInit .reference 0x80000000000000000000000000000000#128) := rfl
theorem test_decode_ghInit_table : decode ⟨0b0000000_1_00010000#16, [oneBytes]⟩ =
    .ok (.ghInit .table 0x80000000000000000000000000000000#128) := rfl
theorem test_decode_ghUpdate : decode ⟨0b0000000_0_00010001#16, [[0x01#8]]⟩ = .ok (.ghUpdate [0x01#8]) := rfl
theorem test_decode_ghFinal : decode ⟨0b0000000_0_00010010#16, []⟩ = .ok .ghFinal := rfl
theorem test_decode_ghReset : decode ⟨0b0000000_0_00010011#16, []⟩ = .ok .ghReset := rfl
theorem test_decode_ghOneshot : decode ⟨0b0000000_1_00010100#16, [zeros 16, [0x01#8], [0x02#8]]⟩ =
    .ok (.ghOneshot .table 0 [0x01#8] [0x02#8]) := rfl
theorem test_decode_gcmInit : decode ⟨0b0000000_0_00100000#16, [[0x01#8], [0x02#8]]⟩ =
    .ok (.gcmInit .reference [0x01#8] [0x02#8]) := rfl
theorem test_decode_gcmAad : decode ⟨0b0000000_0_00100001#16, [[0x01#8]]⟩ = .ok (.gcmAad [0x01#8]) := rfl
theorem test_decode_gcmEnc : decode ⟨0b0000000_0_00100010#16, [[0x01#8]]⟩ = .ok (.gcmEnc [0x01#8]) := rfl
theorem test_decode_gcmDec : decode ⟨0b0000000_0_00100011#16, [[0x01#8]]⟩ = .ok (.gcmDec [0x01#8]) := rfl
theorem test_decode_gcmTag : decode ⟨0b0000000_0_00100100#16, []⟩ = .ok .gcmTag := rfl
theorem test_decode_gcmVerifyDec :
    decode ⟨0b0000000_1_00100101#16, [[0x01#8], [0x02#8], [0x03#8], [0x04#8], [0x05#8]]⟩ =
      .ok (.gcmVerifyDec .table [0x01#8] [0x02#8] [0x03#8] [0x04#8] [0x05#8]) := rfl
theorem test_decode_gcmAbort : decode ⟨0b0000000_0_00100110#16, []⟩ = .ok .gcmAbort := rfl

/-- V-VAL-1 to V-VAL-6: reserved opcodes, the last with S = 1. -/
theorem test_decode_badOpcode :
    ∀ cw ∈ [0x0000#16, 0x0002#16, 0x0015#16, 0x0027#16, 0x00ff#16, 0x01ff#16],
      decode ⟨cw, []⟩ = .error .badOpcode := by
  intro cw h
  fin_cases h <;> rfl

/-- V-VAL-7 to V-VAL-12. -/
theorem test_decode_reservedBits :
    ∀ cw ∈ [0x0112#16, 0x0212#16, 0x8001#16, 0x0101#16, 0x0124#16, 0x0126#16],
      decode ⟨cw, []⟩ = .error .reservedBits := by
  intro cw h
  fin_cases h <;> rfl

/-- V-GF-15 to V-GF-17, V-GH-15, V-GH-18, V-VAL-13, V-VAL-37. -/
theorem test_decode_badOperands :
    ∀ cmd ∈ [(⟨0x0001#16, [zeros 16]⟩ : Command), ⟨0x0001#16, [zeros 15, zeros 16]⟩,
        ⟨0x0001#16, [zeros 16, zeros 16, zeros 16]⟩, ⟨0x0010#16, [zeros 17]⟩, ⟨0x0012#16, [[]]⟩,
        ⟨0x0020#16, [zeros 16]⟩, ⟨0x0026#16, [[]]⟩],
      decode cmd = .error .badOperands := by
  intro cmd h
  fin_cases h <;> rfl

/-- Frame 2 of program P3: `GCM_INIT` with a zero key and a zero IV. -/
theorem test_frame_gcmInit :
    encodeBytes (.gcmInit .reference (zeros 16) (zeros 12)) =
      beBytes 47 0x002002000000000000001000000000000000000000000000000000000000000000000c000000000000000000000000 := by
  decide +kernel

/-- Frame 3 of program P1, read from a stream with one more byte after it. -/
theorem test_frame_ghUpdate :
    decodeBytes (beBytes 27 0x00110100000000000000100388dace60b6a392f328c2b971b2fe78 ++ [0xff#8]) =
      .ok (.ghUpdate (beBytes 16 0x0388dace60b6a392f328c2b971b2fe78), [0xff#8]) := rfl

/-- A frame cut short gives no command yet. -/
theorem test_frame_incomplete : decodeBytes (beBytes 4 0x00110100) = .error .incompleteFrame := rfl

/-- Response 1 of program P1: VALIDATION_ERROR, GH_NOT_INITIALIZED. -/
theorem test_response_frame :
    responseFrame (validationResponse .ghNotInitialized) = beBytes 10 0x010c0000000000000000 := by decide +kernel

/-- The examples of R104. -/
theorem test_assemble_gcmInit :
    assemble "GCM_INIT.T 0xfeffe9928665731c6d6a8f9467308308, 0xcafebabefacedbaddecaf888".toList =
      some ⟨0x0120#16, [beBytes 16 0xfeffe9928665731c6d6a8f9467308308, beBytes 12 0xcafebabefacedbaddecaf888]⟩ := by
  decide +kernel

theorem test_assemble_gcmAad :
    assemble "GCM_AAD \"Authenticated-Header\"".toList =
      some ⟨0x0021#16, [beBytes 20 0x41757468656e746963617465642d486561646572]⟩ := by decide +kernel

/-- A suffix on an opcode without a strategy is no command (R104). -/
theorem test_assemble_suffix : assemble "GCM_TAG.T".toList = none := by decide +kernel

/-- A word of the table, with zero operands, is the next thing the core runs. -/
theorem test_withFetchWord :
    step (State.reset.withFetchWord 16 0x0120) = exec (.gcmInit .table (zeros 16) (zeros 12)) State.reset := rfl

/-! ## Running one command -/

/-- The next state of an outcome, if it is one. -/
def nextOf (o : Host.Outcome State Fault Refusal) : Option State :=
  match o with
  | .next t => some t
  | .fault _ => none
  | .refused _ => none

/-- The response a command adds when run from a state without responses. -/
def answer (o : Host.Outcome State Fault Refusal) : Option (List Response) := (nextOf o).map (·.responses)

/-- H0 of spec/95_test_vectors.md, AES-128 of the zero block under the zero key. -/
def h0 : Block := 0x66e94bd4ef8a2c3b884cfa59ca342b2e

/-- C2 of spec/95_test_vectors.md. -/
def c2 : Block := 0x0388dace60b6a392f328c2b971b2fe78

/-- The D[:17] of spec/95_test_vectors.md: the bytes 1 to 17. -/
def d17 : Bytes := beBytes 17 0x0102030405060708090a0b0c0d0e0f1011

/-- An instance whose GHASH context is given, otherwise reset. -/
def withG (g : GhashContext) : State := State.reset.setG g

/-- An instance whose GCM context is given, otherwise reset. -/
def withC (c : GcmContext) : State := State.reset.setC c

/-- The GHASH context after `GH_INIT H0` and an accumulator value. -/
def gRef (y : Block) : GhashContext := { valid := true, strat := .reference, h := h0, y := y, tbl := .invalid }

/-- A platform whose cipher is known on finitely many blocks and 0 elsewhere, with the default FIRST_COUNTER. -/
def knownCipher (pairs : List (Block × Block)) : Platform where
  cipher := fun _ b => ((pairs.find? (fun e => e.1 == b)).map (·.2)).getD 0
  firstCounter := .inc32J0

/-- AES-128 under the zero key on the blocks of program P3 (V-GCM-1, V-GCM-2). -/
def aesZero : Platform :=
  knownCipher [(0, h0), (1, 0x58e2fccefa7e3061367f1d57a4e7455a), (2, c2)]

/-- SM4 under the key of SX §8 on the zero block and J0 (V-GCM-7), and on the two counter blocks after J0, from V-GCM-7's
plaintext and ciphertext. -/
def sm4 : Platform :=
  knownCipher [(0, 0x2677f46b09c122cc975533105bd4a22a),
    (0xa1b2c3d4e5f60708090a0b0c00000001, 0xc737bedfb48ebd8cfa41d89b1e88ffd9),
    (0xa1b2c3d4e5f60708090a0b0c00000002, 0xce4e4eea93428b655b03de82a0b05eec ^^^ 0x534d342d47434d20456e637279707469),
    (0xa1b2c3d4e5f60708090a0b0c00000003, 0x42d1c4e4b097b9f3845daa9dda6d1286 ^^^ 0x6f6e2054657374212031323334353637)]

/-- The session of SX §8 as program P4 leaves it, with the given phase, direction, counter, accumulator and lengths. -/
def sm4Session (ph : Phase) (dir : Option Direction) (st : Strategy) (ctr y : Block) (al cl : BitVec 64) : GcmContext where
  phase := ph
  dir := dir
  strat := st
  key := 0x0123456789abcdeffedcba9876543210
  h := 0x2677f46b09c122cc975533105bd4a22a
  j0 := 0xa1b2c3d4e5f60708090a0b0c00000001
  ctr := ctr
  y := y
  tbl := tableFor st 0x2677f46b09c122cc975533105bd4a22a
  aadLen := al
  cLen := cl

def sm4Key : Bytes := beBytes 16 0x0123456789abcdeffedcba9876543210
def sm4Aad : Bytes := beBytes 20 0x41757468656e746963617465642d486561646572
def sm4Plain : Bytes := beBytes 32 0x534d342d47434d20456e6372797074696f6e2054657374212031323334353637
def sm4Cipher : Bytes := beBytes 32 0xce4e4eea93428b655b03de82a0b05eec42d1c4e4b097b9f3845daa9dda6d1286

/-- V-GF-9. -/
theorem test_gfMul : answer (exec (.gfMul c2 h0) State.reset) =
    some [okResponse (beBytes 16 0x5e2ec746917062882c85b0685353deb7)] := by decide +kernel

/-- V-GF-8: a reduction in every round. -/
theorem test_gfMul_ones : gfmul 0xffffffffffffffffffffffffffffffff 0xffffffffffffffffffffffffffffffff =
    0xf402aaaaaaaaaaaaaaaaaaaaaaaaaaaa := by decide +kernel

/-- V-TBL-5. -/
theorem test_table_entry : tableEntry (buildTable h0) 16 2 = 0xaa5a4805fb8dd7092eba52f53be28b0e := by decide +kernel

/-- V-GF-9 through the table. -/
theorem test_tmul : tmul c2 (buildTable h0) = 0x5e2ec746917062882c85b0685353deb7 := by decide +kernel

/-- V-GH-20: re-keying with the TABLE strategy. -/
theorem test_ghInit : (nextOf (exec (.ghInit .table 0x80000000000000000000000000000000) (withG (gRef c2)))).map (·.g) =
    some { valid := true, strat := .table, h := 0x80000000000000000000000000000000, y := 0,
           tbl := .valid 0x80000000000000000000000000000000 } := by decide +kernel

/-- V-GH-5: a short block is padded with zeros. -/
theorem test_ghUpdate : (nextOf (exec (.ghUpdate [0x01#8]) (withG (gRef 0)))).map (·.g.y) =
    some 0x6575d297a9df1458771099f4b3946856 := by decide +kernel

/-- V-GH-13. -/
theorem test_ghUpdate_unkeyed : answer (exec (.ghUpdate c2.toBytes) State.reset) =
    some [validationResponse .ghNotInitialized] := by decide +kernel

/-- Program P1, command 5. -/
theorem test_ghFinal : answer (exec .ghFinal (withG (gRef 0xf38cbb1ad69223dcc3457ae5b6b0f885))) =
    some [okResponse (beBytes 16 0xf38cbb1ad69223dcc3457ae5b6b0f885)] := by decide +kernel

/-- V-GH-12. -/
theorem test_ghFinal_unkeyed : answer (exec .ghFinal State.reset) =
    some [validationResponse .ghNotInitialized] := by decide +kernel

/-- V-GH-19. -/
theorem test_ghReset : (nextOf (exec .ghReset (withG (gRef c2)))).map (·.g) = some (gRef 0) := by decide +kernel

/-- V-GH-14. -/
theorem test_ghReset_unkeyed : answer (exec .ghReset State.reset) =
    some [validationResponse .ghNotInitialized] := by decide +kernel

/-- V-GH-4, with the table. -/
theorem test_ghOneshot : answer (exec (.ghOneshot .table h0 [] c2.toBytes) State.reset) =
    some [okResponse (beBytes 16 0xf38cbb1ad69223dcc3457ae5b6b0f885)] := by decide +kernel

/-- V-GH-11, n = 17. -/
theorem test_ghOneshot_17 : answer (exec (.ghOneshot .reference h0 d17 d17) State.reset) =
    some [okResponse (beBytes 16 0x90b29c4b55b21ca405a124abfc87d832)] := by decide +kernel

/-- V-INC-2: no carry leaves byte 12. -/
theorem test_inc32 : inc32 0xababababababababababababffffffff = 0xabababababababababababab00000000 := by
  decide +kernel

/-- V-LEN-3. -/
theorem test_lenBlock : lenBlock 2305843009213693951 1 = 0xfffffffffffffff80000000000000008 := by decide +kernel

/-- V-IV-1: an 8-byte IV takes the hash path. -/
theorem test_gcmInit : (nextOf (gcmInitOn sm4 .table sm4Key (beBytes 8 0xa1b2c3d4e5f60708) State.reset)).map
    (fun t => (t.c.j0, t.c.ctr)) =
    some (0xcc7239920f2bce15126d83b4510865fb, 0xcc7239920f2bce15126d83b4510865fc) := by decide +kernel

/-- V-VAL-18: the key is checked before the IV. -/
theorem test_gcmInit_key_first : answer (exec (.gcmInit .reference (zeros 15) []) State.reset) =
    some [validationResponse .badKeyLength] := by decide +kernel

/-- Program P4, command 2. -/
theorem test_gcmAad : (nextOf (exec (.gcmAad sm4Aad)
    (withC (sm4Session .initialized none .reference 0xa1b2c3d4e5f60708090a0b0c00000002 0 0 0)))).map
      (fun t => (t.c.phase, t.c.y, t.c.aadLen)) =
    some (.aadPhase, 0xe998b959bc0a338b16acc8ff81b0cd4c, 20#64) := by decide +kernel

/-- V-VAL-26. -/
theorem test_gcmAad_twice : answer (exec (.gcmAad [])
    (withC (sm4Session .aadPhase none .reference 0xa1b2c3d4e5f60708090a0b0c00000002 0 0 0))) =
    some [validationResponse .aadAlreadySet] := by decide +kernel

/-- Program P4, command 8 (TABLE): output, counter and accumulator. -/
theorem test_gcmEnc : (nextOf (gcmEncOn sm4 sm4Plain
    (withC (sm4Session .aadPhase none .table 0xa1b2c3d4e5f60708090a0b0c00000002
      0xe998b959bc0a338b16acc8ff81b0cd4c 20 0)))).map (fun t => (t.responses, t.c.ctr, t.c.y, t.c.cLen)) =
    some ([okResponse sm4Cipher], 0xa1b2c3d4e5f60708090a0b0c00000004,
      0x6333684dc3f7ec5bd5cb09a440bea533, 32#64) := by decide +kernel

/-- V-GCM-8d: one partial block uses the first keystream byte and a whole counter value. -/
theorem test_gcmEnc_partial : (nextOf (gcmEncOn aesZero [0x00#8]
    (withC (sessionInit aesZero .reference (zeros 16) (zeros 12))))).map
      (fun t => (t.responses, t.c.ctr, t.c.cLen)) =
    some ([okResponse [0x03#8]], 3, 1#64) := by decide +kernel

/-- Program P4, command 12. -/
theorem test_gcmDec : (nextOf (gcmDecOn sm4 sm4Cipher
    (withC (sm4Session .aadPhase none .reference 0xa1b2c3d4e5f60708090a0b0c00000002
      0xe998b959bc0a338b16acc8ff81b0cd4c 20 0)))).map (fun t => (t.responses, t.c.ctr, t.c.y, t.c.dir)) =
    some ([okResponse sm4Plain], 0xa1b2c3d4e5f60708090a0b0c00000004,
      0x6333684dc3f7ec5bd5cb09a440bea533, some .decrypt) := by decide +kernel

/-- V-VAL-28. -/
theorem test_gcmDec_mixed : answer (exec (.gcmDec [])
    (withC (sm4Session .cipherPhase (some .encrypt) .reference 2 0 0 0))) =
    some [validationResponse .directionMixed] := by decide +kernel

/-- Program P4, command 4. -/
theorem test_gcmTag : (nextOf (gcmTagOn sm4
    (withC (sm4Session .cipherPhase (some .encrypt) .reference 0xa1b2c3d4e5f60708090a0b0c00000004
      0x6333684dc3f7ec5bd5cb09a440bea533 20 32)))).map (fun t => (t.responses, t.c.y, t.c.phase)) =
    some ([okResponse (beBytes 16 0xe7663a3595d80e7840b7853c64413775)],
      0x205184ea2156b3f4baf65da77ac9c8ac, .finalized) := by decide +kernel

/-- V-VAL-22. -/
theorem test_gcmTag_early : answer (exec .gcmTag State.reset) =
    some [validationResponse .outOfSequence] := by decide +kernel

/-- Program P3, command 10. -/
theorem test_gcmVerifyDec : answer (gcmVerifyDecOn aesZero .reference (zeros 16) (zeros 12) []
    (beBytes 16 0x028ad9ca65b0a49afa22c9b57cbcf168) (beBytes 16 0x0a54f1d5a117adc823b15c0434738123) State.reset) =
    some [okResponse (beBytes 16 0x0102030405060708090a0b0c0d0e0f10)] := by decide +kernel

/-- Program P3, command 9: the tag's first byte changed; zeros come out, and the session is finalized. -/
theorem test_gcmVerifyDec_tampered : (nextOf (gcmVerifyDecOn aesZero .table (zeros 16) (zeros 12) []
    (beBytes 16 0x028ad9ca65b0a49afa22c9b57cbcf168) (beBytes 16 0x0b54f1d5a117adc823b15c0434738123) State.reset)).map
      (fun t => (t.responses, t.c.phase, t.c.dir)) =
    some ([authFailureResponse 16], .finalized, some .decrypt) := by decide +kernel

/-- Program P3, command 12. -/
theorem test_gcmAbort : (nextOf (exec .gcmAbort
    (withC (sm4Session .finalized (some .decrypt) .table 3 5 0 16)))).map (·.c) = some GcmContext.reset := by
  decide +kernel

/-- The reset event returns no response (R230). -/
theorem test_reset_event :
    nextOf (step ((withG (gRef c2)).sendNext .reset)) = some State.reset := by decide +kernel

/-- The reading FIRST_COUNTER = J0: C.CTR after GCM_INIT in V-GCM-2's ALT column. -/
theorem test_firstCounter_j0 :
    (sessionInit { aesZero with firstCounter := .j0 } .reference (zeros 16) (zeros 12)).ctr = 1 := by decide +kernel

/-! ## Witnesses: what meets the hypotheses of a statement, clause by clause, at the boundaries -/

/-- An instance to which the host sends one event next. -/
def sends (e : HostEvent) : State := State.reset.sendNext e

/-- A byte string as long as a bound of R15, and one a byte longer. -/
def atBound : Bytes := List.replicate (2 ^ 61 - 1) 0#8
def overBound : Bytes := List.replicate (2 ^ 61) 0#8

theorem length_atBound : atBound.length = 2 ^ 61 - 1 := List.length_replicate
theorem length_overBound : overBound.length = 2 ^ 61 := List.length_replicate

/-- The session of SX §8 in a phase, with a direction and a number of data bytes. -/
def inPhase (ph : Phase) (dir : Option Direction) (cl : BitVec 64) : State :=
  withC (sm4Session ph dir .reference 0xa1b2c3d4e5f60708090a0b0c00000002 0 0 cl)

/-- The command, run there, answers a response that `f` holds of. -/
def Answers (i : Instr) (s : State) (f : Response → Prop) : Prop :=
  ∃ (t : State) (r : Response), exec i s = .next t ∧ t.responses = s.responses ++ [r] ∧ f r

/-- A word that is refused for its reserved bits, and a word that is refused for an operand list. -/
def RefusedForms (opc : Nat) (words : List (BitVec 16)) (good : List Bytes → Prop) : Prop :=
  (∃ cw : BitVec 16, cw.toNat % 256 = opc ∧ cw ∉ words) ∧
    ∃ cw : BitVec 16, cw.toNat % 256 = opc ∧ cw ∈ words ∧ ∃ ops : List Bytes, ¬ good ops

theorem witness_OpcodeMapDecodes : (zeros 16).length = 16 ∧ oneBytes.length = 16 := ⟨rfl, rfl⟩

theorem witness_ReservedOpcodeRefused :
    ∀ cw ∈ [0x0000#16, 0x0002#16, 0x000F#16, 0x0015#16, 0x001F#16, 0x0027#16, 0xFFFF#16],
      (sends (.command ⟨cw, [[]]⟩)).pending = .command ⟨cw, [[]]⟩ :: [] ∧ Opcode.ofCode (opcField cw) = none := by
  intro cw h
  fin_cases h <;> exact ⟨rfl, rfl⟩

theorem witness_ReservedBitsRefused :
    (∀ cw ∈ [0x0220#16, 0x8020#16, 0xFF20#16],
      (sends (.command ⟨cw, []⟩)).pending = .command ⟨cw, []⟩ :: [] ∧
        cw.toNat % 256 = Opcode.gcmInit.code.toNat ∧ cw.toNat / 512 ≠ 0) ∧
    ((sends (.command ⟨0x0101#16, []⟩)).pending = .command ⟨0x0101#16, []⟩ :: [] ∧
      (0x0101#16).toNat % 256 = Opcode.gfMul.code.toNat ∧ (0x0101#16).toNat / 256 % 2 = 1) := by
  refine ⟨fun cw h => ?_, rfl, rfl, rfl⟩
  fin_cases h <;> exact ⟨rfl, rfl, by decide⟩

theorem witness_DecodingTotal : decode ⟨0x0027#16, []⟩ = .error .badOpcode := rfl

theorem witness_DecodeEncodeAgree : decode ⟨0x0110#16, [oneBytes]⟩ =
    .ok (.ghInit .table 0x80000000000000000000000000000000#128) := rfl

theorem witness_CommandFrameRoundTrip : Command.wf ⟨0xFFFF#16, List.replicate 255 []⟩ = true := by decide +kernel

theorem witness_DecodeEncodeBytes :
    (Instr.ghUpdate []).wf = true ∧ (Instr.gcmVerifyDec .table sm4Key [0x01#8] sm4Aad sm4Cipher []).wf = true := by
  decide

theorem witness_ResponseFrameUnambiguous :
    (okResponse sm4Cipher).out.length < 2 ^ 64 ∧
      responseFrame (okResponse sm4Cipher) ++ [0x00#8] = responseFrame (okResponse sm4Cipher) ++ [0x00#8] :=
  ⟨by decide, rfl⟩

theorem witness_StepRunsDecoded :
    (sends (.command ⟨0x0120#16, [sm4Key, [0x01#8]]⟩)).pending = .command ⟨0x0120#16, [sm4Key, [0x01#8]]⟩ :: [] ∧
      decode ⟨0x0120#16, [sm4Key, [0x01#8]]⟩ = .ok (.gcmInit .table sm4Key [0x01#8]) := ⟨rfl, rfl⟩

theorem witness_StepRefusesUndecoded :
    ∀ e ∈ [((⟨0x0000#16, []⟩ : Command), SubCode.badOpcode), (⟨0x0212#16, []⟩, .reservedBits),
        (⟨0x0012#16, [[]]⟩, .badOperands)],
      (sends (.command e.1)).pending = .command e.1 :: [] ∧ decode e.1 = .error e.2 := by
  intro e h
  fin_cases h <;> exact ⟨rfl, rfl⟩

theorem witness_IdleHoldsState : (withG (gRef c2)).pending = [] := rfl

theorem witness_ResetEventValues : ((withG (gRef c2)).sendNext .reset).pending = .reset :: [] := rfl

theorem witness_OneResponsePerCommand : ∃ t : State, exec (.ghUpdate d17) (withG (gRef c2)) = .next t := ⟨_, rfl⟩

theorem foldl_or_allOnes (l : Bytes) : l.foldl (· ||| ·) (BitVec.allOnes 8) = BitVec.allOnes 8 := by
  induction l with
  | nil => rfl
  | cons x l ih => rw [List.foldl_cons, BitVec.allOnes_or, ih]

theorem tagsEqual_flipped (a : Byte) (l m : Bytes) : tagsEqual (a :: l) (~~~a :: m) = false := by
  have h : a ^^^ ~~~a = BitVec.allOnes 8 := by
    revert a
    decide
  rw [tagsEqual, List.zipWith_cons_cons, List.foldl_cons, h, BitVec.zero_or, foldl_or_allOnes]
  rfl

/-- A 16-byte tag that differs from the one the core computes for the empty message under the zero key and IV. -/
def wrongTag : Bytes :=
  ~~~((sessionTag Config.platform (sessionCrypt Config.platform .decrypt []
    (sessionAad [] (sessionInit Config.platform .reference (zeros 16) (zeros 12)))).1).2.toBytes.headD 0) :: zeros 15

/-- GCM_VERIFY_DEC refuses that tag, whatever the cipher is. -/
theorem verifyDec_wrongTag :
    exec (.gcmVerifyDec .reference (zeros 16) (zeros 12) [] [] wrongTag) State.reset =
      .next ((State.reset.setC (verifyDecEffect Config.platform .reference (zeros 16) (zeros 12) [] [] wrongTag).1).respond
        (authFailureResponse 0)) := by
  have h : tagsEqual (sessionTag Config.platform (sessionCrypt Config.platform .decrypt []
      (sessionAad [] (sessionInit Config.platform .reference (zeros 16) (zeros 12)))).1).2.toBytes wrongTag = false :=
    tagsEqual_flipped _ _ _
  rw [exec, execGcmVerifyDec, gcmVerifyDecOn, checked_of_pass rfl]
  simp only [verifyDecEffect, h]
  rfl

theorem witness_ValidationErrorWritesNothing :
    Answers .ghFinal State.reset (·.status = .validationError) ∧
    Answers .ghFinal (withG (gRef c2)) (·.status = .ok) ∧
    Answers (.gcmVerifyDec .reference (zeros 16) (zeros 12) [] [] wrongTag) State.reset
      (·.status = .authenticationFailure) :=
  ⟨⟨_, _, rfl, rfl, rfl⟩, ⟨_, _, rfl, rfl, rfl⟩, ⟨_, _, verifyDec_wrongTag, rfl, rfl⟩⟩

theorem witness_ContextsDisjoint :
    (∃ t t', exec (.gcmAad sm4Aad) (inPhase .initialized none 0) = .next t ∧
      exec (.gcmAad sm4Aad) ((inPhase .initialized none 0).setG (gRef c2)) = .next t' ∧
      Instr.isGcm (.gcmAad sm4Aad) ∧
      (inPhase .initialized none 0).c = ((inPhase .initialized none 0).setG (gRef c2)).c) ∧
    (∃ t t', exec .ghFinal (withG (gRef c2)) = .next t ∧
      exec .ghFinal ((inPhase .initialized none 0).setG (gRef c2)) = .next t' ∧ Instr.isGh .ghFinal ∧
      (withG (gRef c2)).g = ((inPhase .initialized none 0).setG (gRef c2)).g) :=
  ⟨⟨_, _, rfl, rfl, by unfold Instr.isGcm; decide, rfl⟩, ⟨_, _, rfl, rfl, by unfold Instr.isGh; decide, rfl⟩⟩

theorem witness_UnusedFieldsUnread :
    (∃ t t', exec .gcmTag State.reset = .next t ∧ exec .gcmTag (inPhase .uninitialized none 7) = .next t' ∧
      State.reset.g = (inPhase .uninitialized none 7).g ∧ State.reset.c.phase = .uninitialized ∧
      (inPhase .uninitialized none 7).c.phase = .uninitialized) ∧
    (∃ t t', exec .ghReset State.reset = .next t ∧
      exec .ghReset (withG { gRef c2 with valid := false }) = .next t' ∧
      State.reset.c = (withG { gRef c2 with valid := false }).c ∧ State.reset.g.valid = false ∧
      (withG { gRef c2 with valid := false }).g.valid = false) :=
  ⟨⟨_, _, rfl, rfl, rfl, rfl, rfl⟩, ⟨_, _, rfl, rfl, rfl, rfl, rfl⟩⟩

theorem witness_InstancesIsolated :
    ([State.reset, sends (.command ⟨0x0024#16, []⟩)] : Instances)[1]? = some (sends (.command ⟨0x0024#16, []⟩)) ∧
      (0 : Nat) ≠ 1 ∧
      ∃ ys, Instances.step 1 [State.reset, sends (.command ⟨0x0024#16, []⟩)] = .next ys :=
  ⟨rfl, by decide, _, rfl⟩

theorem witness_IdempotentCommands :
    (∃ t u, exec .ghFinal (withG (gRef c2)) = .next t ∧ exec .ghFinal t = .next u) ∧
    (∃ t u, exec (.gfMul c2 h0) State.reset = .next t ∧ exec (.gfMul c2 h0) t = .next u) ∧
    (∃ t u, exec (.ghOneshot .table h0 [] []) State.reset = .next t ∧
      exec (.ghOneshot .table h0 [] []) t = .next u) ∧
    (∃ t u, exec .ghReset (withG (gRef c2)) = .next t ∧ exec .ghReset t = .next u) ∧
    (∃ t u, exec .gcmAbort (inPhase .aadPhase none 0) = .next t ∧ exec .gcmAbort t = .next u) :=
  ⟨⟨_, _, rfl, rfl⟩, ⟨_, _, rfl, rfl⟩, ⟨_, _, rfl, rfl⟩, ⟨_, _, rfl, rfl⟩, ⟨_, _, rfl, rfl⟩⟩

/-- A keyed GHASH context beside an unused GCM context, with a command waiting. -/
def keyed : State := (withG (gRef c2)).sendNext (.command ⟨0x0012#16, []⟩)

theorem witness_StepKeepsInvariant : keyed.Inv ∧ ∃ t, step keyed = .next t := by
  refine ⟨⟨⟨fun h => absurd rfl h, fun h => absurd rfl h, fun _ => rfl, ?_, rfl, Nat.zero_le _, Nat.zero_le _⟩,
    nofun, rfl⟩, _, rfl⟩
  exact ⟨fun _ => .inl rfl, fun _ => rfl⟩

/-- A session of SX §8 that has absorbed no AAD and two empty chunks. -/
def absorbing : State := (inPhase .cipherPhase (some .encrypt) 0).sendNext (.command ⟨0x0022#16, [sm4Plain]⟩)

theorem witness_StepKeepsAbsorbed :
    (absorbing.c.Absorbed ⟨[], [[], []]⟩ ∧ decode ⟨0x0022#16, [sm4Plain]⟩ = .ok (.gcmEnc sm4Plain) ∧
      ∃ t, step absorbing = .next t) ∧
    ((inPhase .aadPhase none 0).c.Absorbed ⟨[], []⟩ ∧ (inPhase .aadPhase none 0).pending = [] ∧
      ∃ t, step (inPhase .aadPhase none 0) = .next t) ∧
    ((inPhase .initialized none 0).c.Absorbed ⟨[], []⟩ ∧
      ∃ t, step ((inPhase .initialized none 0).sendNext .reset) = .next t) ∧
    (State.reset.c.Absorbed ⟨[], []⟩ ∧ decode ⟨0x0000#16, []⟩ = .error .badOpcode ∧
      ∃ t, step (sends (.command ⟨0x0000#16, []⟩)) = .next t) :=
  ⟨⟨⟨rfl, rfl, rfl⟩, rfl, _, rfl⟩, ⟨⟨rfl, rfl, rfl, rfl⟩, rfl, _, rfl⟩, ⟨⟨rfl, rfl, rfl, rfl⟩, _, rfl⟩,
    ⟨⟨rfl, rfl, rfl, rfl⟩, rfl, _, rfl⟩⟩

/-- A session just started under the zero key and IV, and its record. -/
def started : Run :=
  ⟨withC (sessionInit Config.platform .table (zeros 16) (zeros 12)), [⟨zeros 16, zeros 12, .empty, false, false⟩]⟩

theorem witness_RunRecordsSessions : started.Recorded ∧ started.state.c.phase ≠ .uninitialized := by
  refine ⟨fun _ => ⟨_, _, rfl, rfl, by decide, by decide, rfl, rfl, rfl, rfl, ⟨rfl, rfl, rfl, rfl⟩, nofun, nofun⟩, nofun⟩

theorem witness_SessionConstants :
    (inPhase .initialized none 0).c.inSession ∧ (inPhase .aadPhase none 0).c.inSession ∧
      (inPhase .cipherPhase (some .decrypt) 0).c.inSession ∧
      (∃ t, exec (.gcmDec d17) (inPhase .cipherPhase (some .decrypt) 0) = .next t) ∧
      (Instr.gcmDec d17).opcode ≠ .gcmAbort :=
  ⟨.inl rfl, .inr (.inl rfl), .inr (.inr rfl), ⟨_, rfl⟩, by decide⟩

theorem witness_PhaseTable_init :
    (∀ ph ∈ [Phase.uninitialized, .finalized],
      Answers (.gcmInit .table sm4Key [0x01#8]) (inPhase ph none 0) (·.status = .ok) ∧
      Answers (.gcmInit .table [] [0x01#8]) (inPhase ph none 0) (·.status = .validationError)) ∧
    ∀ ph ∈ [Phase.initialized, .aadPhase, .cipherPhase],
      (inPhase ph none 0).c.inSession ∧
        Answers (.gcmInit .table sm4Key [0x01#8]) (inPhase ph none 0) (fun _ => True) := by
  constructor
  · intro ph h
    fin_cases h <;> exact ⟨⟨_, _, rfl, rfl, rfl⟩, ⟨_, _, rfl, rfl, rfl⟩⟩
  · intro ph h
    fin_cases h
    · exact ⟨.inl rfl, _, _, rfl, rfl, trivial⟩
    · exact ⟨.inr (.inl rfl), _, _, rfl, rfl, trivial⟩
    · exact ⟨.inr (.inr rfl), _, _, rfl, rfl, trivial⟩

theorem witness_PhaseTable_aad :
    ∀ ph ∈ [Phase.uninitialized, .initialized, .aadPhase, .cipherPhase, .finalized],
      Answers (.gcmAad []) (inPhase ph none 0) (fun _ => True) := by
  intro ph h
  fin_cases h <;> exact ⟨_, _, rfl, rfl, trivial⟩

theorem witness_PhaseTable_enc_dec :
    ∀ d : Option Direction, ∀ ph ∈ [Phase.uninitialized, .initialized, .aadPhase, .cipherPhase, .finalized],
      Answers (.gcmEnc []) (inPhase ph d 0) (fun _ => True) ∧
        Answers (.gcmDec []) (inPhase ph d 0) (fun _ => True) := by
  intro d ph h
  rcases d with _ | _ | _ <;> fin_cases h <;> exact ⟨⟨_, _, rfl, rfl, trivial⟩, ⟨_, _, rfl, rfl, trivial⟩⟩

theorem witness_PhaseTable_tag_verify_abort :
    ∀ ph ∈ [Phase.uninitialized, .initialized, .aadPhase, .cipherPhase, .finalized],
      Answers .gcmTag (inPhase ph none 0) (fun _ => True) ∧
        Answers (.gcmVerifyDec .table sm4Key [] [] [] []) (inPhase ph none 0) (·.status = .validationError) ∧
        Answers .gcmAbort (inPhase ph none 0) (fun _ => True) ∧
        Answers .ghReset (inPhase ph none 0) (fun _ => True) := by
  intro ph h
  fin_cases h <;>
    exact ⟨⟨_, _, rfl, rfl, trivial⟩, ⟨_, _, rfl, rfl, rfl⟩, ⟨_, _, rfl, rfl, trivial⟩, ⟨_, _, rfl, rfl, trivial⟩⟩

theorem witness_PhaseTable_verify :
    Answers (.gcmVerifyDec .reference (zeros 16) (zeros 12) [] [] wrongTag) State.reset
      (·.status ≠ .validationError) := ⟨_, _, verifyDec_wrongTag, rfl, by decide⟩

/-! The commands: forms refused, then one state and operands for every clause. -/

theorem witness_GfMulCommand :
    RefusedForms 0x01 [0x0001#16]
      (fun ops => ∃ x y : Bytes, ops = [x, y] ∧ x.length = 16 ∧ y.length = 16) ∧ (zeros 16).length = 16 :=
  ⟨⟨⟨0x0101#16, rfl, by decide⟩, 0x0001#16, rfl, by decide, [], by simp⟩, rfl⟩

theorem witness_ChunkingLaw : ([] : Bytes).length % 16 = 0 ∧ (zeros 16).length % 16 = 0 := ⟨rfl, rfl⟩

theorem witness_BlockPartition :
    0 < (blocks d17).length ∧ 1 < (blocks d17).length ∧ (blocks d17).length = 2 ∧ 0 + 1 < (blocks d17).length ∧
      d17 ≠ [] := by decide +kernel

theorem witness_LengthBlock : 0 ≤ 2 ^ 61 - 1 ∧ 2 ^ 61 - 1 ≤ 2 ^ 61 - 1 := by decide

theorem witness_GhInitCommand :
    RefusedForms 0x10 [0x0010#16, 0x0110#16] (fun ops => ∃ h : Bytes, ops = [h] ∧ h.length = 16) ∧
      oneBytes.length = 16 :=
  ⟨⟨⟨0x0210#16, rfl, by decide⟩, 0x0110#16, rfl, by decide, [zeros 17], by simp [zeros]⟩, rfl⟩

theorem witness_GhUpdateCommand :
    RefusedForms 0x11 [0x0011#16] (fun ops => ∃ d : Bytes, ops = [d]) ∧ State.reset.g.valid = false ∧
      (withG (gRef c2)).g.valid = true :=
  ⟨⟨⟨0x0111#16, rfl, by decide⟩, 0x0011#16, rfl, by decide, [], by simp⟩, rfl, rfl⟩

theorem witness_GhFinalCommand :
    RefusedForms 0x12 [0x0012#16] (fun ops => ops = []) ∧ State.reset.g.valid = false ∧
      (withG (gRef c2)).g.valid = true :=
  ⟨⟨⟨0x0112#16, rfl, by decide⟩, 0x0012#16, rfl, by decide, [[]], by simp⟩, rfl, rfl⟩

theorem witness_GhResetCommand :
    RefusedForms 0x13 [0x0013#16] (fun ops => ops = []) ∧ State.reset.g.valid = false ∧
      (withG (gRef c2)).g.valid = true :=
  ⟨⟨⟨0x0113#16, rfl, by decide⟩, 0x0013#16, rfl, by decide, [[]], by simp⟩, rfl, rfl⟩

theorem witness_GhOneshotCommand :
    RefusedForms 0x14 [0x0014#16, 0x0114#16] (fun ops => ∃ h a c : Bytes, ops = [h, a, c] ∧ h.length = 16) ∧
      overBound.length > 2 ^ 61 - 1 ∧ atBound.length ≤ 2 ^ 61 - 1 ∧ ([] : Bytes).length ≤ 2 ^ 61 - 1 := by
  refine ⟨⟨⟨0x8014#16, rfl, by decide⟩, 0x0014#16, rfl, by decide, [], by simp⟩, ?_, ?_, by decide⟩
  · rw [length_overBound]
    decide
  · rw [length_atBound]

theorem witness_CounterWrap : aesZero.firstCounter = .inc32J0 := rfl

theorem witness_InitialCounterBlock :
    ((zeros 12).length = 12 ∧ (zeros 12).length ≤ 2 ^ 61 - 1) ∧ (zeros 11).length ≠ 12 ∧ (zeros 13).length ≠ 12 ∧
      ([] : Bytes).length ≠ 12 ∧ (atBound.length ≠ 12 ∧ atBound.length ≤ 2 ^ 61 - 1) := by
  rw [length_atBound]
  decide

/-- The operand lengths of a session that the checks take, at both ends, and the nearest they refuse. -/
theorem witness_lengths :
    (zeros 16).length = 16 ∧ (zeros 15).length ≠ 16 ∧ (zeros 17).length ≠ 16 ∧ ([] : Bytes).length = 0 ∧
      0 < [0x00#8].length ∧ atBound.length ≤ 2 ^ 61 - 1 ∧ 0 < atBound.length ∧ overBound.length > 2 ^ 61 - 1 ∧
      ¬ (0 < ([] : Bytes).length ∧ ([] : Bytes).length ≤ 2 ^ 61 - 1) ∧
      ¬ (0 < overBound.length ∧ overBound.length ≤ 2 ^ 61 - 1) := by
  rw [length_atBound, length_overBound]
  decide

/-- The phases that start a session, and the phases in one. -/
theorem witness_phases :
    (inPhase .uninitialized none 0).c.phase = .uninitialized ∧ (inPhase .finalized none 0).c.phase = .finalized ∧
      (inPhase .initialized none 0).c.inSession ∧ (inPhase .aadPhase none 0).c.inSession ∧
      (inPhase .cipherPhase none 0).c.inSession := ⟨rfl, rfl, .inl rfl, .inr (.inl rfl), .inr (.inr rfl)⟩

theorem witness_GcmInitCommand :
    RefusedForms 0x20 [0x0020#16, 0x0120#16] (fun ops => ∃ k iv : Bytes, ops = [k, iv]) ∧
      (inPhase .aadPhase none 0).c.inSession ∧ (inPhase .finalized none 0).c.phase = .finalized ∧
      (zeros 15).length ≠ 16 ∧ (zeros 16).length = 16 ∧ ([] : Bytes).length = 0 ∧ overBound.length > 2 ^ 61 - 1 ∧
      0 < atBound.length ∧ atBound.length ≤ 2 ^ 61 - 1 :=
  ⟨⟨⟨0x0220#16, rfl, by decide⟩, 0x0020#16, rfl, by decide, [], by simp⟩, witness_phases.2.2.2.1, rfl,
    witness_lengths.2.1, rfl, rfl, witness_lengths.2.2.2.2.2.2.2.1, witness_lengths.2.2.2.2.2.2.1,
    witness_lengths.2.2.2.2.2.1⟩

theorem witness_GcmAadCommand :
    RefusedForms 0x21 [0x0021#16] (fun ops => ∃ a : Bytes, ops = [a]) ∧
      (inPhase .aadPhase none 0).c.phase = .aadPhase ∧
      (State.reset.c.phase ≠ .aadPhase ∧ State.reset.c.phase ≠ .initialized) ∧
      (inPhase .initialized none 0).c.phase = .initialized ∧ overBound.length > 2 ^ 61 - 1 ∧
      atBound.length ≤ 2 ^ 61 - 1 :=
  ⟨⟨⟨0x0121#16, rfl, by decide⟩, 0x0021#16, rfl, by decide, [], by simp⟩, rfl, by decide, rfl,
    witness_lengths.2.2.2.2.2.2.2.1, witness_lengths.2.2.2.2.2.1⟩

theorem witness_GcmEncCommand :
    RefusedForms 0x22 [0x0022#16] (fun ops => ∃ d : Bytes, ops = [d]) ∧ State.reset.c.phase = .uninitialized ∧
      ((inPhase .cipherPhase (some .decrypt) 0).c.phase = .cipherPhase ∧
        (inPhase .cipherPhase (some .decrypt) 0).c.dir ≠ some .encrypt) ∧
      ((inPhase .cipherPhase (some .encrypt) 2305843009213693951).c.phase = .cipherPhase ∧
        (inPhase .cipherPhase (some .encrypt) 2305843009213693951).c.dir = some .encrypt ∧
        (inPhase .cipherPhase (some .encrypt) 2305843009213693951).c.cLen.toNat + [0x00#8].length > 2 ^ 61 - 1 ∧
        (inPhase .cipherPhase (some .encrypt) 2305843009213693951).c.cLen.toNat + ([] : Bytes).length ≤ 2 ^ 61 - 1) ∧
      (inPhase .initialized none 0).c.phase = .initialized ∧ (inPhase .aadPhase none 0).c.phase = .aadPhase :=
  ⟨⟨⟨0x0122#16, rfl, by decide⟩, 0x0022#16, rfl, by decide, [], by simp⟩, rfl, ⟨rfl, by decide⟩,
    ⟨rfl, rfl, by decide, by decide⟩, rfl, rfl⟩

theorem witness_GcmDecCommand :
    RefusedForms 0x23 [0x0023#16] (fun ops => ∃ d : Bytes, ops = [d]) ∧
      (inPhase .finalized none 0).c.phase = .finalized ∧
      ((inPhase .cipherPhase (some .encrypt) 0).c.phase = .cipherPhase ∧
        (inPhase .cipherPhase (some .encrypt) 0).c.dir ≠ some .decrypt) ∧
      ((inPhase .cipherPhase (some .decrypt) 2305843009213693951).c.phase = .cipherPhase ∧
        (inPhase .cipherPhase (some .decrypt) 2305843009213693951).c.dir = some .decrypt ∧
        (inPhase .cipherPhase (some .decrypt) 2305843009213693951).c.cLen.toNat + [0x00#8].length > 2 ^ 61 - 1 ∧
        (inPhase .cipherPhase (some .decrypt) 2305843009213693951).c.cLen.toNat + ([] : Bytes).length ≤ 2 ^ 61 - 1) ∧
      (inPhase .initialized none 0).c.phase = .initialized ∧ (inPhase .aadPhase none 0).c.phase = .aadPhase :=
  ⟨⟨⟨0x0123#16, rfl, by decide⟩, 0x0023#16, rfl, by decide, [], by simp⟩, rfl, ⟨rfl, by decide⟩,
    ⟨rfl, rfl, by decide, by decide⟩, rfl, rfl⟩

theorem witness_GcmTagCommand :
    RefusedForms 0x24 [0x0024#16] (fun ops => ops = []) ∧ (inPhase .aadPhase none 0).c.phase ≠ .cipherPhase ∧
      (inPhase .cipherPhase (some .encrypt) 2305843009213693951).c.phase = .cipherPhase ∧
      (inPhase .cipherPhase (some .encrypt) 2305843009213693951).c.aadLen.toNat ≤ 2 ^ 61 - 1 ∧
      (inPhase .cipherPhase (some .encrypt) 2305843009213693951).c.cLen.toNat ≤ 2 ^ 61 - 1 :=
  ⟨⟨⟨0x0124#16, rfl, by decide⟩, 0x0024#16, rfl, by decide, [[]], by simp⟩, by decide, rfl, by decide, by decide⟩

theorem witness_TagComparisonExact : sm4Key.length = 16 ∧ (zeros 16).length = 16 := ⟨rfl, rfl⟩

theorem witness_GcmVerifyDecCommand :
    RefusedForms 0x25 [0x0025#16, 0x0125#16] (fun ops => ∃ k iv a c t : Bytes, ops = [k, iv, a, c, t]) ∧
      (inPhase .cipherPhase none 0).c.inSession ∧ State.reset.c.phase = .uninitialized ∧
      (zeros 17).length ≠ 16 ∧ (zeros 16).length = 16 ∧
      ¬ (0 < ([] : Bytes).length ∧ ([] : Bytes).length ≤ 2 ^ 61 - 1) ∧
      ¬ (0 < overBound.length ∧ overBound.length ≤ 2 ^ 61 - 1) ∧
      (0 < atBound.length ∧ atBound.length ≤ 2 ^ 61 - 1) ∧ overBound.length > 2 ^ 61 - 1 :=
  ⟨⟨⟨0x0225#16, rfl, by decide⟩, 0x0125#16, rfl, by decide, [], by simp⟩, .inr (.inr rfl), rfl,
    witness_lengths.2.2.1, rfl, witness_lengths.2.2.2.2.2.2.2.2.1, witness_lengths.2.2.2.2.2.2.2.2.2,
    ⟨witness_lengths.2.2.2.2.2.2.1, witness_lengths.2.2.2.2.2.1⟩, witness_lengths.2.2.2.2.2.2.2.1⟩

theorem witness_AuthFailureNotTransient :
    Answers (.gcmVerifyDec .reference (zeros 16) (zeros 12) [] [] wrongTag) State.reset
      (·.status = .authenticationFailure) := ⟨_, _, verifyDec_wrongTag, rfl, rfl⟩

theorem witness_GcmAbortCommand : RefusedForms 0x26 [0x0026#16] (fun ops => ops = []) :=
  ⟨⟨0x0126#16, rfl, by decide⟩, 0x0026#16, rfl, by decide, [[]], by simp⟩

theorem witness_SealStopsAtFirstFailure :
    (inPhase .initialized none 0).c.inSession ∧ State.reset.c.phase = .uninitialized ∧
      (inPhase .finalized none 0).c.phase = .finalized ∧ (zeros 15).length ≠ 16 ∧ (zeros 16).length = 16 ∧
      ¬ (0 < ([] : Bytes).length ∧ ([] : Bytes).length ≤ 2 ^ 61 - 1) ∧
      ¬ (0 < overBound.length ∧ overBound.length ≤ 2 ^ 61 - 1) ∧
      (0 < atBound.length ∧ atBound.length ≤ 2 ^ 61 - 1) ∧ overBound.length > 2 ^ 61 - 1 :=
  ⟨.inl rfl, rfl, rfl, witness_lengths.2.1, rfl, witness_lengths.2.2.2.2.2.2.2.2.1,
    witness_lengths.2.2.2.2.2.2.2.2.2, ⟨witness_lengths.2.2.2.2.2.2.1, witness_lengths.2.2.2.2.2.1⟩,
    witness_lengths.2.2.2.2.2.2.2.1⟩

theorem witness_SealWholeMessage :
    State.reset.c.phase = .uninitialized ∧ (zeros 16).length = 16 ∧ 0 < [0x00#8].length ∧
      atBound.length ≤ 2 ^ 61 - 1 := ⟨rfl, rfl, by decide, witness_lengths.2.2.2.2.2.1⟩

theorem witness_SealThenVerifyRoundTrip :
    ∃ (t : State) (tag : Bytes), gcmSeal .reference (zeros 16) (zeros 12) [] [] State.reset = .next t ∧
      t.responses = State.reset.responses ++ [okResponse [], okResponse [], ⟨.ok, none, []⟩, ⟨.ok, none, tag⟩] ∧
      (inPhase .finalized none 0).c.phase = .finalized := ⟨_, _, rfl, rfl, rfl⟩

theorem witness_ChunkedPass :
    ([] : Bytes).length % 16 = 0 ∧
    (∃ s1 s2 o1 o2, exec (.gcmEnc []) (inPhase .initialized none 0) = .next s1 ∧ exec (.gcmEnc [0x01#8]) s1 = .next s2 ∧
      s2.responses = (inPhase .initialized none 0).responses ++ [⟨.ok, none, o1⟩, ⟨.ok, none, o2⟩]) ∧
    (∃ s1 s2 o1 o2, exec (.gcmDec []) (inPhase .aadPhase none 0) = .next s1 ∧ exec (.gcmDec [0x01#8]) s1 = .next s2 ∧
      s2.responses = (inPhase .aadPhase none 0).responses ++ [⟨.ok, none, o1⟩, ⟨.ok, none, o2⟩]) :=
  ⟨rfl, ⟨_, _, _, _, rfl, rfl, rfl⟩, ⟨_, _, _, _, rfl, rfl, rfl⟩⟩

theorem witness_FirstCounterJ0LeaksHash :
    ({ aesZero with firstCounter := .j0 } : Platform).firstCounter = .j0 ∧ 16 ≤ (zeros 16).length ∧ 16 ≤ d17.length :=
  ⟨rfl, by decide, by decide⟩

/-! ## The duties of the host -/

/-- The message of program P3 as a session leaves it. -/
def p3Session (tagged failed : Bool) : SessionRecord :=
  ⟨zeros 16, zeros 12, ⟨[], [beBytes 16 0x028ad9ca65b0a49afa22c9b57cbcf168]⟩, tagged, failed⟩

/-- Program P3 seals one message and verifies it twice, the first time with a wrong tag: the duties are kept. -/
theorem test_duties_p3 :
    NonceUnique [p3Session true false, p3Session true true, p3Session true false] ∧
      CounterDuty [p3Session true false, p3Session true true, p3Session true false] := by
  unfold NonceUnique CounterDuty SessionRecord.HasMessage SessionRecord.PartOf
  decide +kernel

/-- A second message under the same key and IV breaks them. -/
theorem test_duties_reuse : ¬ NonceUnique [p3Session true false, { p3Session true false with text := ⟨[], [[0x00#8]]⟩ }] := by
  unfold NonceUnique SessionRecord.HasMessage SessionRecord.PartOf
  decide +kernel

/-- Decrypting in two whole-block chunks, and once more in one: the sessions of the run, and one message in them. -/
theorem test_run_sessions :
    (runOf [.command ⟨0x0023#16, [d17]⟩, .command ⟨0x0020#16, [zeros 16, zeros 12]⟩,
      .command ⟨0x0023#16, [sm4Cipher.take 16]⟩, .command ⟨0x0023#16, [sm4Cipher.drop 16]⟩,
      .command ⟨0x0024#16, []⟩, .command ⟨0x0120#16, [zeros 16, zeros 12]⟩, .command ⟨0x0021#16, [[]]⟩,
      .command ⟨0x0023#16, [sm4Cipher]⟩, .reset]).sessions =
    [⟨zeros 16, zeros 12, ⟨[], [sm4Cipher]⟩, false, false⟩,
      ⟨zeros 16, zeros 12, ⟨[], [sm4Cipher.take 16, sm4Cipher.drop 16]⟩, true, false⟩] := by decide +kernel

theorem test_run_duties :
    NonceUnique [⟨zeros 16, zeros 12, ⟨[], [sm4Cipher]⟩, false, false⟩,
      ⟨zeros 16, zeros 12, ⟨[], [sm4Cipher.take 16, sm4Cipher.drop 16]⟩, true, false⟩] := by
  unfold NonceUnique SessionRecord.HasMessage SessionRecord.PartOf
  decide +kernel

end Sys2Proof.Tests
end

section
/-! The shape of every command with a context of its own (10_state.md R31): it maps that context to a new one and a
response, and nothing else of the state has a part in it. -/

namespace Sys2Proof.Machine

@[simp] theorem setC_self (s : State) : s.setC s.c = s := rfl

@[simp] theorem setG_self (s : State) : s.setG s.g = s := rfl

/-- The new context and the response of a command in the context `x`: the refusal of the first failing check, which
leaves `x`, or else the effect (60_exceptions.md R202, R205). -/
def contextAnswer {κ : Type} (checks : κ → List (Option SubCode)) (effect : κ → κ × Response) (x : κ) :
    κ × Response :=
  match firstFailure (checks x) with
  | some sub => (x, validationResponse sub)
  | none => effect x

/-- The command is the map `f` on the context that `get` reads and `set` writes: it reads no other field, and writes
nothing else but its response. -/
def ActsOn {κ : Type} (get : State → κ) (set : κ → State → State) (i : Instr) (f : κ → κ × Response) : Prop :=
  ∀ s : State, exec i s = .next ((set (f (get s)).1 s).respond (f (get s)).2)

section
variable {κ : Type} {get : State → κ} {set : κ → State → State} {i : Instr}

/-- A command whose checks and effect read one context acts on it alone: a refusal writes it back as it was. -/
theorem actsOn_of_checked (hset : ∀ s, set (get s) s = s) (checks : κ → List (Option SubCode))
    (effect : κ → κ × Response)
    (h : ∀ s : State, exec i s =
      checked (checks (get s)) (fun s => (set (effect (get s)).1 s).respond (effect (get s)).2) s) :
    ActsOn get set i (contextAnswer checks effect) := by
  intro s
  rw [h s]
  cases hc : firstFailure (checks (get s)) with
  | some sub => simp only [checked_of_fail hc, contextAnswer, hc, hset, State.raiseValidation]
  | none => simp only [checked_of_pass hc, contextAnswer, hc]

theorem ActsOn.eq_of_exec {f : κ → κ × Response} {s t : State} (hf : ActsOn get set i f) (h : exec i s = .next t) :
    t = (set (f (get s)).1 s).respond (f (get s)).2 := by
  rw [hf s] at h
  injection h with h
  exact h.symm

end

/-- A command that acts on the GCM context alone. -/
abbrev ActsOnC : Instr → (GcmContext → GcmContext × Response) → Prop := ActsOn State.c State.setC

/-- A command that acts on the GHASH context alone. -/
abbrev ActsOnG : Instr → (GhashContext → GhashContext × Response) → Prop := ActsOn State.g State.setG

/-- The rows 0x20 to 0x26 of the opcode map: each command reads its phase, lengths and session from C. -/
theorem gcm_actsOnC {i : Instr} (h : Instr.isGcm i) : ∃ f, ActsOnC i f := by
  cases i with
  | gcmInit st k iv =>
    exact ⟨_, actsOn_of_checked setC_self (fun c => [gcmSequenceCheck .init c, keyLengthCheck k, ivLengthCheck iv])
      (fun _ => (sessionInit Config.platform st k iv, okResponse [])) (exec_gcmInit st k iv)⟩
  | gcmAad a =>
    exact ⟨_, actsOn_of_checked setC_self (fun c => [gcmSequenceCheck .aad c, aadLengthCheck a])
      (fun c => (sessionAad a c, okResponse [])) (exec_gcmAad a)⟩
  | gcmEnc d =>
    exact ⟨_, actsOn_of_checked setC_self
      (fun c => [gcmSequenceCheck .enc c, dataLengthCheck (c.cLen.toNat + d.length)])
      (fun c => ((sessionCrypt Config.platform .encrypt d c).1,
        okResponse (sessionCrypt Config.platform .encrypt d c).2))
      (exec_gcmEnc d)⟩
  | gcmDec d =>
    exact ⟨_, actsOn_of_checked setC_self
      (fun c => [gcmSequenceCheck .dec c, dataLengthCheck (c.cLen.toNat + d.length)])
      (fun c => ((sessionCrypt Config.platform .decrypt d c).1,
        okResponse (sessionCrypt Config.platform .decrypt d c).2))
      (exec_gcmDec d)⟩
  | gcmTag =>
    exact ⟨_, actsOn_of_checked setC_self (fun c => [gcmSequenceCheck .tag c])
      (fun c => ((sessionTag Config.platform c).1, okResponse (sessionTag Config.platform c).2.toBytes)) exec_gcmTag⟩
  | gcmVerifyDec st k iv a d t =>
    exact ⟨_, actsOn_of_checked setC_self
      (fun c => [gcmSequenceCheck .verifyDec c, keyLengthCheck k, ivLengthCheck iv, aadLengthCheck a,
        dataLengthCheck d.length, tagLengthCheck t])
      (fun _ => verifyDecEffect Config.platform st k iv a d t) (exec_gcmVerifyDec st k iv a d t)⟩
  | gcmAbort =>
    exact ⟨_, actsOn_of_checked setC_self (fun c => [gcmSequenceCheck .abort c])
      (fun _ => (abortedContext, okResponse [])) exec_gcmAbort⟩
  | gfMul | ghInit | ghUpdate | ghFinal | ghReset | ghOneshot =>
    exact absurd h (by dsimp only [Instr.isGcm, Instr.opcode]; decide)

/-- The rows 0x10 to 0x14 of the opcode map. GH_FINAL and GH_ONESHOT write G back as it was. -/
theorem gh_actsOnG {i : Instr} (h : Instr.isGh i) : ∃ f, ActsOnG i f := by
  cases i with
  | ghInit st k =>
    exact ⟨_, actsOn_of_checked setG_self (fun _ => [])
      (fun _ => ({ valid := true, strat := st, h := k, y := 0, tbl := tableFor st k }, okResponse []))
      (exec_ghInit st k)⟩
  | ghUpdate d =>
    exact ⟨_, actsOn_of_checked setG_self (fun g => [ghSequenceCheck g])
      (fun g => ({ g with y := ghashUpdate g.strat g.y g.h g.tbl d }, okResponse [])) (exec_ghUpdate d)⟩
  | ghFinal =>
    exact ⟨_, actsOn_of_checked setG_self (fun g => [ghSequenceCheck g])
      (fun g => (g, okResponse g.y.toBytes)) exec_ghFinal⟩
  | ghReset =>
    exact ⟨_, actsOn_of_checked setG_self (fun g => [ghSequenceCheck g]) (fun g => ({ g with y := 0 }, okResponse []))
      exec_ghReset⟩
  | ghOneshot st k a d =>
    exact ⟨_, actsOn_of_checked setG_self (fun _ => [aadLengthCheck a, dataLengthCheck d.length])
      (fun g => (g, okResponse (ghash st k (tableFor st k) a d).toBytes)) (exec_ghOneshot st k a d)⟩
  | gfMul | gcmInit | gcmAad | gcmEnc | gcmDec | gcmTag | gcmVerifyDec | gcmAbort =>
    exact absurd h (by dsimp only [Instr.isGh, Instr.opcode]; decide)

/-- The responses that come after those of `s` are the ones appended to them. -/
theorem newResponses_of_append {s t : State} {rs : List Response} (h : t.responses = s.responses ++ rs) :
    newResponses s t = rs := by
  rw [newResponses, h, List.drop_left]

@[simp] theorem newResponses_setC_respond (s : State) (c : GcmContext) (r : Response) :
    newResponses s ((s.setC c).respond r) = [r] := newResponses_of_append rfl

@[simp] theorem newResponses_setG_respond (s : State) (g : GhashContext) (r : Response) :
    newResponses s ((s.setG g).respond r) = [r] := newResponses_of_append rfl

/-- Settles O18: every GCM command is a map on C alone and every GHASH command one on G alone, so equal contexts give
equal results. -/
theorem contextsDisjoint : Obligations.ContextsDisjoint := by
  unfold Obligations.ContextsDisjoint
  intro i s s' t t' ht ht'
  constructor
  · intro hi
    obtain ⟨f, hf⟩ := gcm_actsOnC hi
    rw [hf.eq_of_exec ht, hf.eq_of_exec ht']
    exact ⟨by simp, fun hc => by simp [hc]⟩
  · intro hi
    obtain ⟨f, hf⟩ := gh_actsOnG hi
    rw [hf.eq_of_exec ht, hf.eq_of_exec ht']
    exact ⟨by simp, fun hg => by simp [hg]⟩

end Sys2Proof.Machine
end

section
/-! The block partition of a byte string (20_memory.md R67): block j is there exactly when byte 16j is. -/

namespace Sys2Proof.Machine

theorem lt_blockCount_iff {j n : Nat} : j < blockCount n ↔ 16 * j < n := by
  unfold blockCount
  omega

theorem le_mul_blockCount (n : Nat) : n ≤ 16 * blockCount n := by
  rw [← Nat.not_lt, ← lt_blockCount_iff]
  exact Nat.lt_irrefl _

@[simp] theorem length_blockAt (d : Bytes) (j : Nat) : (blockAt d j).length = min 16 (d.length - 16 * j) := by
  rw [blockAt, List.length_take, List.length_drop]

theorem length_blockAt_of_succ_lt {d : Bytes} {j : Nat} (h : j + 1 < blockCount d.length) :
    (blockAt d j).length = 16 := by
  rw [lt_blockCount_iff] at h
  rw [length_blockAt]
  omega

/-- The last block of a byte string that is not empty begins inside the string and reaches its end. -/
theorem length_blockAt_last {d : Bytes} (h : d ≠ []) :
    1 ≤ (blockAt d (blockCount d.length - 1)).length ∧
      (blockAt d (blockCount d.length - 1)).length = d.length - 16 * (blockCount d.length - 1) ∧
      (blockAt d (blockCount d.length - 1)).length ≤ 16 := by
  have hcount : 0 < blockCount d.length := by
    rw [lt_blockCount_iff]
    exact List.length_pos_iff.mpr h
  have hstart : 16 * (blockCount d.length - 1) < d.length := by
    rw [← lt_blockCount_iff]
    omega
  have hend := le_mul_blockCount d.length
  rw [length_blockAt]
  omega

theorem flatten_takeBlocks (m : Nat) (d : Bytes) : (takeBlocks m d).flatten = d.take (16 * m) := by
  induction m generalizing d with
  | zero => rfl
  | succ m ih => rw [takeBlocks, List.flatten_cons, ih, Nat.mul_succ, Nat.add_comm, List.take_add]

@[simp] theorem flatten_blocks (d : Bytes) : (blocks d).flatten = d := by
  rw [blocks, flatten_takeBlocks, List.take_of_length_le (le_mul_blockCount _)]

theorem blocks_getElem? {d : Bytes} {j : Nat} (h : j < blockCount d.length) :
    (blocks d)[j]? = some (blockAt d j) := takeBlocks_getElem? _ d h

/-- Settles O35: the blocks join to a prefix of the string that reaches its end, and the length of each is read off from
where it begins. -/
theorem blockPartition : Obligations.BlockPartition := by
  unfold Obligations.BlockPartition
  intro d
  rw [length_blocks]
  exact ⟨rfl, flatten_blocks d, fun _ => blocks_getElem?, fun _ => length_blockAt_of_succ_lt, length_blockAt_last⟩

end Sys2Proof.Machine
end

section
/-! The decoder by its branches (30_encoding.md R92, R94, R98, R99, R103): what selects an opcode, which word bits and which
operand lists fit it, and the outcome in each case. -/

namespace Sys2Proof.Machine

/-! ## The opcode a word selects -/

/-- R98: a field value selects the opcode whose number it is. -/
theorem ofCode_eq_some_iff {b : BitVec 8} {o : Opcode} : Opcode.ofCode b = some o ↔ b = o.code := by
  constructor
  · intro h
    have hcode := List.find?_some h
    exact (eq_of_beq hcode).symm
  · rintro rfl
    exact ofCode_code o

theorem ofCode_opcField_eq_some_iff {cw : BitVec 16} {o : Opcode} :
    Opcode.ofCode (opcField cw) = some o ↔ cw.toNat % 256 = o.code.toNat := by
  rw [ofCode_eq_some_iff, ← BitVec.toNat_inj, toNat_opcField]

/-- R99: no number of the map, compared one by one, is a value before, between or after its three ranges, and every other
value is one. -/
theorem ofCode_eq_none_iff_toNat (b : BitVec 8) : Opcode.ofCode b = none ↔
    b.toNat = 0x00 ∨ (0x02 ≤ b.toNat ∧ b.toNat ≤ 0x0F) ∨ (0x15 ≤ b.toNat ∧ b.toNat ≤ 0x1F) ∨ 0x27 ≤ b.toNat := by
  simp only [Opcode.ofCode, Opcode.all, List.find?_eq_none, List.mem_cons, List.not_mem_nil, or_false, forall_eq_or_imp,
    forall_eq, beq_iff_eq, Opcode.code]
  bv_omega

/-! ## The other bits of the word, and the operands -/

/-- The bits of the word beside the opcode are right for the opcode: the reserved field is zero, and S = 1 stands only on
an opcode with a strategy (R92). -/
def WordBitsOk (o : Opcode) (cw : BitVec 16) : Prop :=
  cw.toNat / 512 = 0 ∧
    (cw.toNat / 256 % 2 = 1 → o = .ghInit ∨ o = .ghOneshot ∨ o = .gcmInit ∨ o = .gcmVerifyDec)

theorem usesStrategy_iff {o : Opcode} :
    o.usesStrategy = true ↔ o = .ghInit ∨ o = .ghOneshot ∨ o = .gcmInit ∨ o = .gcmVerifyDec := by
  cases o <;> decide

/-- The bits are right exactly when the decoder's test for RESERVED_BITS fails. -/
theorem wordBitsOk_iff {o : Opcode} {cw : BitVec 16} : WordBitsOk o cw ↔
    ¬ (reservedField cw ≠ 0#7 ∨ (strategyBit cw = true ∧ o.usesStrategy = false)) := by
  have hrsv : reservedField cw = 0#7 ↔ cw.toNat / 512 = 0 := by
    rw [← BitVec.toNat_inj, toNat_reservedField]
    rfl
  have hs : strategyBit cw = true ↔ cw.toNat / 256 % 2 = 1 := by rw [strategyBit_eq, decide_eq_true_iff]
  rw [WordBitsOk, ← usesStrategy_iff, ← hrsv, ← hs]
  simp

open Classical in
/-- The operand decoder gives a command of its opcode when the count and the fixed lengths of the format are right, and
nothing otherwise (R94). The opcodes of one format are taken together, and the list apart to one operand more than the
format has. -/
theorem map_opcode_decodeOperands (o : Opcode) (s : Strategy) (ops : List Bytes) :
    (decodeOperands o s ops).map Instr.opcode = if FormatFits o.format ops then some o else none := by
  cases o with
  | ghFinal | ghReset | gcmTag | gcmAbort =>
    cases ops <;> simp [decodeOperands, Instr.opcode, Opcode.format, FormatFits]
  | ghUpdate | gcmAad | gcmEnc | gcmDec =>
    rcases ops with _ | ⟨d, _ | ⟨_, _⟩⟩ <;> simp [decodeOperands, Instr.opcode, Opcode.format, FormatFits]
  | gcmInit =>
    rcases ops with _ | ⟨k, _ | ⟨iv, _ | ⟨_, _⟩⟩⟩ <;>
      simp [decodeOperands, Instr.opcode, Opcode.format, FormatFits]
  | gcmVerifyDec =>
    rcases ops with _ | ⟨k, _ | ⟨iv, _ | ⟨a, _ | ⟨c, _ | ⟨t, _ | ⟨_, _⟩⟩⟩⟩⟩⟩ <;>
      simp [decodeOperands, Instr.opcode, Opcode.format, FormatFits]
  | ghInit =>
    rcases ops with _ | ⟨h, _ | ⟨_, _⟩⟩
    case cons.nil =>
      by_cases hh : h.length = 16 <;>
        simp [decodeOperands, fixedOperand, Instr.opcode, Opcode.format, FormatFits, hh]
    all_goals simp [decodeOperands, Opcode.format, FormatFits]
  | ghOneshot =>
    rcases ops with _ | ⟨h, _ | ⟨a, _ | ⟨c, _ | ⟨_, _⟩⟩⟩⟩
    case cons.cons.cons.nil =>
      by_cases hh : h.length = 16 <;>
        simp [decodeOperands, fixedOperand, Instr.opcode, Opcode.format, FormatFits, hh]
    all_goals simp [decodeOperands, Opcode.format, FormatFits]
  | gfMul =>
    rcases ops with _ | ⟨x, _ | ⟨y, _ | ⟨_, _⟩⟩⟩
    case cons.cons.nil =>
      by_cases hx : x.length = 16 <;> by_cases hy : y.length = 16 <;>
        simp [decodeOperands, fixedOperand, Instr.opcode, Opcode.format, FormatFits, hx, hy]
    all_goals simp [decodeOperands, Opcode.format, FormatFits]

theorem decodeOperands_of_fits {o : Opcode} {ops : List Bytes} (s : Strategy) (h : FormatFits o.format ops) :
    ∃ i, decodeOperands o s ops = some i ∧ i.opcode = o :=
  Option.map_eq_some_iff.mp ((map_opcode_decodeOperands o s ops).trans (if_pos h))

theorem decodeOperands_of_not_fits {o : Opcode} {ops : List Bytes} (s : Strategy) (h : ¬ FormatFits o.format ops) :
    decodeOperands o s ops = none :=
  Option.map_eq_none_iff.mp ((map_opcode_decodeOperands o s ops).trans (if_neg h))

/-! ## The four outcomes of the decoder (60_exceptions.md R205, steps 1 to 3) -/

theorem decode_of_reserved {cmd : Command} (h : Opcode.ofCode (opcField cmd.cw) = none) :
    decode cmd = .error .badOpcode := by
  rw [decode, h]

section
variable {cmd : Command} {o : Opcode} (ho : Opcode.ofCode (opcField cmd.cw) = some o)
include ho

theorem decode_of_badBits (hb : ¬ WordBitsOk o cmd.cw) : decode cmd = .error .reservedBits := by
  rw [wordBitsOk_iff, not_not] at hb
  simp only [decode, ho, if_pos hb]

theorem decode_of_badOperands (hb : WordBitsOk o cmd.cw) (hf : ¬ FormatFits o.format cmd.ops) :
    decode cmd = .error .badOperands := by
  simp only [decode, ho, if_neg (wordBitsOk_iff.mp hb), decodeOperands_of_not_fits _ hf]

theorem decode_of_fits (hb : WordBitsOk o cmd.cw) (hf : FormatFits o.format cmd.ops) :
    ∃ i, decode cmd = .ok i ∧ i.opcode = o := by
  obtain ⟨i, hi, hio⟩ := decodeOperands_of_fits (Strategy.ofBit (strategyBit cmd.cw)) hf
  exact ⟨i, by simp only [decode, ho, if_neg (wordBitsOk_iff.mp hb), hi], hio⟩

end

/-- Settles O4: the low byte selects no opcode or just one, and the bits and the operands fit that one or not. In each of
the four cases the outcome is known, and every clause is read off from it. -/
theorem decodingTotal : Obligations.DecodingTotal := by
  unfold Obligations.DecodingTotal
  intro cmd strategic bitsOk
  simp only [← ofCode_opcField_eq_some_iff, ne_eq]
  cases ho : Opcode.ofCode (opcField cmd.cw) with
  | none => simp [decode_of_reserved ho]
  | some o =>
    by_cases hb : bitsOk o
    · by_cases hf : FormatFits o.format cmd.ops
      · obtain ⟨i, hi, rfl⟩ := decode_of_fits ho hb hf
        simp [hi, hb, hf]
      · simp [decode_of_badOperands ho hb hf, hb, hf]
    · simp [decode_of_badBits ho hb, hb]

/-! ## A step that takes a refused command -/

/-- A step on a command the decoder refuses only takes it and answers the ValidationError (60_exceptions.md R202). -/
theorem step_of_decode_error {s : State} {cmd : Command} {rest : List HostEvent} {sub : SubCode}
    (h : s.pending = .command cmd :: rest) (hd : decode cmd = .error sub) :
    step s = .next ((s.setPending rest).raiseValidation sub) := by
  rw [step_event h, handleEvent, runCommand, hd]

/-- Settles O2: the reserved values are the gaps of the opcode map, and a word with one is refused by the decoder. -/
theorem reservedOpcodeRefused : Obligations.ReservedOpcodeRefused := by
  unfold Obligations.ReservedOpcodeRefused
  exact ⟨ofCode_eq_none_iff_toNat, fun _ _ _ h hnone => step_of_decode_error h (decode_of_reserved hnone)⟩

end Sys2Proof.Machine
end

section
/-! The form errors of a command from the row of its opcode (30_encoding.md R92, R94), for the obligations on single
commands, and GF_MUL (40_gf128.md section 2). -/

namespace Sys2Proof.Machine

/-- The words of a row of the opcode map: S = 0, and S = 1 where the opcode has a strategy (R92, R98). -/
def rowWords (o : Opcode) : List (BitVec 16) :=
  if o.usesStrategy then [commandWord o .reference, commandWord o .table] else [commandWord o .reference]

theorem toNat_commandWord (o : Opcode) (s : Strategy) :
    (commandWord o s).toNat = 256 * s.bit.toNat + o.code.toNat := by
  cases o <;> cases s <;> decide

/-- Among the words with the number of an opcode, those of its row are the ones with the right bits: above the number
stands 0, or 1 where S = 1 is allowed. -/
theorem mem_rowWords_iff {o : Opcode} {cw : BitVec 16} (h : cw.toNat % 256 = o.code.toNat) :
    cw ∈ rowWords o ↔ WordBitsOk o cw := by
  rw [WordBitsOk, ← usesStrategy_iff, rowWords]
  cases o.usesStrategy with
  | false =>
    simp only [Bool.false_eq_true, if_false, imp_false, List.mem_singleton, ← BitVec.toNat_inj, toNat_commandWord,
      Strategy.bit, Bool.toNat_false]
    omega
  | true =>
    simp only [if_true, implies_true, and_true, List.mem_cons, List.not_mem_nil, or_false, ← BitVec.toNat_inj,
      toNat_commandWord, Strategy.bit, Bool.toNat_false, Bool.toNat_true]
    omega

/-- The forms refused on an opcode are the words outside its row, and on a word of the row the operand lists that do not
fit its format. -/
theorem formErrors_row (o : Opcode) {good : List Bytes → Prop} (hgood : ∀ ops, FormatFits o.format ops → good ops) :
    FormErrors o.code.toNat (rowWords o) good := by
  intro cw ops hcode
  have ho : Opcode.ofCode (opcField cw) = some o := ofCode_opcField_eq_some_iff.mpr hcode
  rw [mem_rowWords_iff hcode]
  exact ⟨decode_of_badBits (cmd := ⟨cw, ops⟩) ho,
    fun hbits hbad => decode_of_badOperands (cmd := ⟨cw, ops⟩) ho hbits (mt (hgood ops) hbad)⟩

theorem fixedOperand_of_length {b : Bytes} (h : b.length = 16) : fixedOperand b = some (Block.ofBytes b) := if_pos h

/-! ## GF_MUL -/

theorem exists_blocks_of_fits_fXY {ops : List Bytes} (h : FormatFits .fXY ops) :
    ∃ x y : Bytes, ops = [x, y] ∧ x.length = 16 ∧ y.length = 16 := by
  obtain ⟨hcount, hlengths⟩ := h
  obtain ⟨x, y, rfl⟩ := List.length_eq_two.mp hcount
  exact ⟨x, y, rfl, hlengths x (by simp), hlengths y (by simp)⟩

theorem decode_gfMul {x y : Bytes} (hx : x.length = 16) (hy : y.length = 16) :
    decode ⟨commandWord .gfMul .reference, [x, y]⟩ = .ok (.gfMul (Block.ofBytes x) (Block.ofBytes y)) := by
  rw [decode_word (o := .gfMul) (s := .reference) nofun]
  simp only [decodeOperands, fixedOperand_of_length hx, fixedOperand_of_length hy]

/-- Settles O30: the forms refused are those of the row of GF_MUL, and the command has no check, so in every state it has
its effect. -/
theorem gfMulCommand : Obligations.GfMulCommand := by
  unfold Obligations.GfMulCommand
  refine ⟨formErrors_row .gfMul fun _ => exists_blocks_of_fits_fXY, fun _ _ => decode_gfMul, fun x y s => ?_⟩
  rw [exec_gfMul, checked_of_pass rfl, State.respond, okResponse]

end Sys2Proof.Machine
end

section
/-! The multiplier is additive in its first operand (40_gf128.md R113 (d), (f)), and so the table of a key multiplies by
that key (41_ghash.md R123): the lookups are the products of the nibbles of the operand, and the nibbles sum to it. -/

namespace Sys2Proof.Machine

/-- Where both operands have the bit, V is added twice and cancels. -/
theorem gfmulRound_xor (x w : Block) (z z' v : Block) (i : Nat) :
    gfmulRound (x ^^^ w) (z ^^^ z', v) i =
      ((gfmulRound x (z, v) i).1 ^^^ (gfmulRound w (z', v) i).1, shiftReduce v) := by
  have hboth : (z ^^^ v) ^^^ (z' ^^^ v) = z ^^^ z' := by
    rw [show (z ^^^ v) ^^^ (z' ^^^ v) = (z ^^^ z') ^^^ (v ^^^ v) by ac_rfl, BitVec.xor_self, BitVec.xor_zero]
  have hfirst : (z ^^^ v) ^^^ z' = (z ^^^ z') ^^^ v := by ac_rfl
  cases hx : x.getMsbD i <;> cases hw : w.getMsbD i <;>
    simp [gfmulRound, blockBit, hx, hw, hboth, hfirst, BitVec.xor_assoc]

/-- V does not depend on the first operand, so over the same rounds the sums of two operands add. -/
theorem foldl_gfmulRound_xor (x w : Block) (rounds : List Nat) (z z' v : Block) :
    (rounds.foldl (gfmulRound (x ^^^ w)) (z ^^^ z', v)).1 =
      (rounds.foldl (gfmulRound x) (z, v)).1 ^^^ (rounds.foldl (gfmulRound w) (z', v)).1 := by
  induction rounds generalizing z z' v with
  | nil => rfl
  | cons i rounds ih =>
    rw [List.foldl_cons, gfmulRound_xor, ih]
    rfl

theorem gfmul_xor (x w y : Block) : gfmul (x ^^^ w) y = gfmul x y ^^^ gfmul w y :=
  foldl_gfmulRound_xor x w (List.range 128) 0 0 y

@[simp] theorem gfmul_zero_left (y : Block) : gfmul 0#128 y = 0#128 := by
  have h := gfmul_xor 0 0 y
  rwa [BitVec.xor_self, BitVec.xor_self] at h

/-! ## The nibbles of a block (R124) -/

theorem nibbleAt_lt (x : Block) (p : Nat) : nibbleAt x p < 16 := Nat.mod_lt _ (by decide)

/-- The block with the first `n` nibbles of `x` and zeros after them. -/
def firstNibbles (x : Block) (n : Nat) : Block := x >>> (4 * (32 - n)) <<< (4 * (32 - n))

@[simp] theorem firstNibbles_zero (x : Block) : firstNibbles x 0 = 0 := by
  simp [firstNibbles]

@[simp] theorem firstNibbles_all (x : Block) : firstNibbles x 32 = x := by simp [firstNibbles]

theorem getLsbD_firstNibbles (x : Block) (n i : Nat) :
    (firstNibbles x n).getLsbD i = (decide (4 * (32 - n) ≤ i) && x.getLsbD i) := by
  by_cases h : 4 * (32 - n) ≤ i
  · simpa [firstNibbles, h, Nat.not_lt.mpr h] using BitVec.lt_of_getLsbD
  · simp [firstNibbles, h, Nat.not_le.mp h]

theorem getLsbD_nibbleBlock (x : Block) {p : Nat} (hp : p < 32) (i : Nat) :
    (nibbleBlock p (nibbleAt x p)).getLsbD i =
      (decide (4 * (31 - p) ≤ i) && decide (i < 4 * (32 - p)) && x.getLsbD i) := by
  rw [nibbleBlock, nibbleAt, BitVec.getLsbD_ofNat, Nat.testBit_mul_two_pow, show 16 = 2 ^ 4 from rfl,
    Nat.testBit_mod_two_pow, Nat.testBit_div_two_pow]
  by_cases hi : 4 * (31 - p) ≤ i
  · rw [Nat.sub_add_cancel hi, BitVec.testBit_toNat]
    have hlast : i - 4 * (31 - p) < 4 ↔ i < 4 * (32 - p) := by omega
    have hin : i < 4 * (32 - p) → i < 128 := by omega
    grind
  · simp [hi]

theorem firstNibbles_succ (x : Block) {n : Nat} (h : n < 32) :
    firstNibbles x (n + 1) = firstNibbles x n ^^^ nibbleBlock n (nibbleAt x n) := by
  apply BitVec.eq_of_getLsbD_eq
  intro i _
  rw [BitVec.getLsbD_xor, getLsbD_firstNibbles, getLsbD_firstNibbles, getLsbD_nibbleBlock x h]
  have hnext : 4 * (32 - (n + 1)) ≤ i ↔ 4 * (31 - n) ≤ i ∧ i < 4 * (32 - n) ∨ 4 * (32 - n) ≤ i := by omega
  grind

theorem tableEntry_buildTable (h : Block) {p v : Nat} (hp : p < 32) (hv : v < 16) :
    tableEntry (buildTable h) p v = gfmul (nibbleBlock p v) h := by
  simp [tableEntry, buildTable, hp, hv]

/-- The lookups of the first `n` nibble positions give the product of the first `n` nibbles. -/
theorem foldl_lookups (x h : Block) {n : Nat} (hn : n ≤ 32) :
    (List.range n).foldl (fun z p => z ^^^ tableEntry (buildTable h) p (nibbleAt x p)) 0 =
      gfmul (firstNibbles x n) h := by
  induction n with
  | zero => simp
  | succ n ih =>
    rw [List.range_succ, List.foldl_append, ih (by omega), firstNibbles_succ x hn, gfmul_xor, List.foldl_cons,
      List.foldl_nil, tableEntry_buildTable h hn (nibbleAt_lt x n)]

/-- Settles O31: the product is additive in its first operand, and the 32 nibbles of a block sum to it. -/
theorem tableContract : Obligations.TableContract := by
  unfold Obligations.TableContract
  intro x h
  rw [tmul, foldl_lookups x h le_rfl, firstNibbles_all]

end Sys2Proof.Machine
end

section
/-! GHASH as one fold over the blocks, for either strategy (41_ghash.md R120 to R122, R126, R133). -/

namespace Sys2Proof.Machine

/-- R126: with the table its strategy needs, the unit multiplies by the key. -/
@[simp] theorem mulH_tableFor (s : Strategy) (x h : Block) : mulH s x h (tableFor s h) = gfmul x h := by
  cases s with
  | reference => rfl
  | table => exact tableContract x h

/-- One block absorbed by the bit-serial multiplier (R120). -/
def absorbBySerial (h y : Block) (b : Bytes) : Block := gfmul (y ^^^ pad16 b) h

theorem absorb_tableFor (s : Strategy) (h : Block) : absorb s h (tableFor s h) = absorbBySerial h := by
  funext y b
  exact mulH_tableFor s _ h

theorem ghashUpdate_tableFor (s : Strategy) (y h : Block) (d : Bytes) :
    ghashUpdate s y h (tableFor s h) d = (blocks d).foldl (absorbBySerial h) y := by
  rw [ghashUpdate, absorb_tableFor]

theorem ghash_tableFor (s : Strategy) (h : Block) (a c : Bytes) :
    ghash s h (tableFor s h) a c =
      (blocks a ++ blocks c ++ blocks (lenBlock a.length c.length).toBytes).foldl (absorbBySerial h) 0 := by
  rw [ghash, ghashUpdate_tableFor, ghashUpdate_tableFor, ghashUpdate_tableFor, List.foldl_append, List.foldl_append]

/-- Settles O32: with the table its strategy needs, both strategies fold the same bit-serial product over the blocks. -/
theorem strategyEquivalence : Obligations.StrategyEquivalence := by
  unfold Obligations.StrategyEquivalence
  constructor
  · intro h y d
    exact (ghashUpdate_tableFor .reference y h d).trans (ghashUpdate_tableFor .table y h d).symm
  · intro h a c s
    simp only [exec_ghOneshot, ghash_tableFor]

/-! ## The length block (R121) -/

/-- The first `m` bytes of `m + n` are those of the number without its low `n` digits. -/
theorem beBytes_add (m n v : Nat) : beBytes (m + n) v = beBytes m (v / 256 ^ n) ++ beBytes n v := by
  induction m with
  | zero => simp [beBytes]
  | succ m ih =>
    rw [Nat.succ_add, beBytes, beBytes, ih, Nat.div_div_eq_div_mul, ← pow_add, Nat.add_comm n m, List.cons_append]

/-- R121, for every pair of counts: past the bounds of R15 both sides keep the low 64 bits. -/
theorem lenBlock_toBytes (a c : Nat) : (lenBlock a c).toBytes = beBytes 8 (8 * a) ++ beBytes 8 (8 * c) := by
  have hval : (lenBlock a c).toNat = 8 * a % 256 ^ 8 * 256 ^ 8 + 8 * c % 256 ^ 8 := by
    rw [lenBlock, BitVec.toNat_append, BitVec.toNat_ofNat, BitVec.toNat_ofNat,
      ← Nat.shiftLeft_add_eq_or_of_lt (Nat.mod_lt _ (by decide)), Nat.shiftLeft_eq,
      show 2 ^ 64 = 256 ^ 8 from rfl]
  have hlow : 8 * c % 256 ^ 8 < 256 ^ 8 := Nat.mod_lt _ (by decide)
  have hhigh : (lenBlock a c).toNat / 256 ^ 8 = 8 * a % 256 ^ 8 := by omega
  have hrest : (lenBlock a c).toNat % 256 ^ 8 = 8 * c % 256 ^ 8 := by omega
  rw [Block.toBytes, show 16 = 8 + 8 from rfl, beBytes_add, hhigh, ← beBytes_mod 8 (lenBlock a c).toNat, hrest,
    beBytes_mod, beBytes_mod]

theorem intBE_beBytes_of_lt {n v : Nat} (h : v < 256 ^ n) : intBE (beBytes n v) = v := by
  rw [intBE_beBytes, Nat.mod_eq_of_lt h]

/-- Settles O36: a byte count below 2^61 has a bit count below 2^64, which its eight bytes hold. -/
theorem lengthBlock : Obligations.LengthBlock := by
  unfold Obligations.LengthBlock
  intro a c ha hc
  have ha' : 8 * a < 2 ^ 64 := by omega
  have hc' : 8 * c < 2 ^ 64 := by omega
  refine ⟨ha', hc', lenBlock_toBytes a c, ?_, ?_⟩
  · rw [lenBlock_toBytes, List.take_left' (length_beBytes _ _), intBE_beBytes_of_lt ha']
  · rw [lenBlock_toBytes, List.drop_left' (length_beBytes _ _), intBE_beBytes_of_lt hc']

end Sys2Proof.Machine
end

section
/-! The commands on the GHASH context (41_ghash.md section 3): the forms of each row, and what the command does in every
state. -/

namespace Sys2Proof.Machine

/-! ## The operand lists of a format (30_encoding.md R94) -/

theorem nil_of_fits_fNone {ops : List Bytes} (h : FormatFits .fNone ops) : ops = [] :=
  List.eq_nil_of_length_eq_zero h

theorem exists_bytes_of_fits_fD {ops : List Bytes} (h : FormatFits .fD ops) : ∃ d : Bytes, ops = [d] :=
  List.length_eq_one_iff.mp h

theorem exists_block_of_fits_fH {ops : List Bytes} (h : FormatFits .fH ops) :
    ∃ b : Bytes, ops = [b] ∧ b.length = 16 := by
  obtain ⟨hcount, hlengths⟩ := h
  obtain ⟨b, rfl⟩ := List.length_eq_one_iff.mp hcount
  exact ⟨b, rfl, hlengths b (by simp)⟩

theorem exists_block_of_fits_fHAC {ops : List Bytes} (h : FormatFits .fHAC ops) :
    ∃ b a c : Bytes, ops = [b, a, c] ∧ b.length = 16 := by
  obtain ⟨hcount, hlength⟩ := h
  obtain ⟨b, a, c, rfl⟩ := List.length_eq_three.mp hcount
  exact ⟨b, a, c, rfl, hlength b rfl⟩

/-! ## Commands with a strategy -/

theorem decode_ghInit (st : Strategy) {h : Bytes} (hh : h.length = 16) :
    decode ⟨commandWord .ghInit st, [h]⟩ = .ok (.ghInit st (Block.ofBytes h)) := by
  rw [decode_word (o := .ghInit) fun _ => rfl]
  simp only [decodeOperands, fixedOperand_of_length hh, Option.map_some]

theorem decode_ghOneshot (st : Strategy) {h : Bytes} (a c : Bytes) (hh : h.length = 16) :
    decode ⟨commandWord .ghOneshot st, [h, a, c]⟩ = .ok (.ghOneshot st (Block.ofBytes h) a c) := by
  rw [decode_word (o := .ghOneshot) fun _ => rfl]
  simp only [decodeOperands, fixedOperand_of_length hh, Option.map_some]

/-- Settles O37: GH_INIT has no check, so in every state it has its effect. -/
theorem ghInitCommand : Obligations.GhInitCommand := by
  unfold Obligations.GhInitCommand
  refine ⟨formErrors_row .ghInit fun _ => exists_block_of_fits_fH,
    fun _ hh => ⟨decode_ghInit .reference hh, decode_ghInit .table hh⟩, fun h s => ⟨?_, ?_⟩⟩
  · rw [exec_ghInit, checked_of_pass rfl, State.respond, State.setG, okResponse, tableFor_reference]
  · rw [exec_ghInit, checked_of_pass rfl, State.respond, State.setG, okResponse, tableFor_table]

/-! ## Commands that need the key (10_state.md R45) -/

section
variable {s : State} {effect : State → State}

/-- Without a key the only answer is GH_NOT_INITIALIZED, and nothing is written (60_exceptions.md R202). -/
theorem checked_ghSequence_of_unkeyed (h : s.g.valid = false) :
    checked [ghSequenceCheck s.g] effect s =
      .next ⟨s.c, s.g, s.pending, s.responses ++ [⟨.validationError, some .ghNotInitialized, []⟩]⟩ :=
  checked_of_fail (by rw [ghSequenceCheck_some h, firstFailure_cons_some]) effect s

theorem checked_ghSequence_of_keyed (h : s.g.valid = true) :
    checked [ghSequenceCheck s.g] effect s = .next (effect s) :=
  checked_of_pass (by rw [ghSequenceCheck_none h, firstFailure_cons_none, firstFailure_nil]) effect s

end

/-- R120 with the blocks of R67 by their numbers. -/
theorem ghashUpdate_eq_foldl_blockAt (s : Strategy) (y h : Block) (t : Table) (d : Bytes) :
    ghashUpdate s y h t d =
      (List.range (blockCount d.length)).foldl (fun y j => absorb s h t y (blockAt d j)) y := by
  rw [ghashUpdate, blocks_eq_map, List.foldl_map]

/-- Settles O38: the data is absorbed as the fold over the numbers of its blocks. -/
theorem ghUpdateCommand : Obligations.GhUpdateCommand := by
  unfold Obligations.GhUpdateCommand
  refine ⟨formErrors_row .ghUpdate fun _ => exists_bytes_of_fits_fD,
    fun _ => decode_word (o := .ghUpdate) (s := .reference) nofun _, fun d s h => ?_, fun d s h => ?_⟩
  · rw [exec_ghUpdate, checked_ghSequence_of_unkeyed h]
  · rw [exec_ghUpdate, checked_ghSequence_of_keyed h, ghashUpdate_eq_foldl_blockAt]
    rfl

/-- Settles O39: with a key GH_FINAL only answers the accumulator. -/
theorem ghFinalCommand : Obligations.GhFinalCommand := by
  unfold Obligations.GhFinalCommand
  refine ⟨formErrors_row .ghFinal fun _ => nil_of_fits_fNone, decode_word (o := .ghFinal) (s := .reference) nofun _,
    fun s h => ?_, fun s h => ?_⟩
  · rw [exec_ghFinal, checked_ghSequence_of_unkeyed h]
  · rw [exec_ghFinal, checked_ghSequence_of_keyed h, State.respond, okResponse]

/-- Settles O40: with a key GH_RESET writes the accumulator and nothing else. -/
theorem ghResetCommand : Obligations.GhResetCommand := by
  unfold Obligations.GhResetCommand
  refine ⟨formErrors_row .ghReset fun _ => nil_of_fits_fNone, decode_word (o := .ghReset) (s := .reference) nofun _,
    fun s h => ?_, fun s h => ?_⟩
  · rw [exec_ghReset, checked_ghSequence_of_unkeyed h]
  · rw [exec_ghReset, checked_ghSequence_of_keyed h, State.respond, State.setG, okResponse]

/-! ## GH_ONESHOT -/

theorem aadLengthCheck_some {a : Bytes} (h : a.length > Config.aadMaxBytes) :
    aadLengthCheck a = some .badAadLength := if_pos h

theorem dataLengthCheck_some {n : Nat} (h : n > Config.cMaxBytes) : dataLengthCheck n = some .badDataLength :=
  if_pos h

theorem blocks_of_length {b : Bytes} (h : b.length = 16) : blocks b = [b] := by
  rw [blocks, h]
  simp [blockCount, takeBlocks, List.take_of_length_le h.le]

/-- Settles O41: the first length past its bound decides the refusal, and otherwise the hash is the fold over the blocks
of the two strings and the length block. -/
theorem ghOneshotCommand : Obligations.GhOneshotCommand := by
  unfold Obligations.GhOneshotCommand
  refine ⟨formErrors_row .ghOneshot fun _ => exists_block_of_fits_fHAC,
    fun _ a c hh => ⟨decode_ghOneshot .reference a c hh, decode_ghOneshot .table a c hh⟩,
    fun st h a c s ha => ?_, fun st h a c s ha hc => ?_, fun st h a c s ha hc => ?_⟩
  · rw [exec_ghOneshot, aadLengthCheck_some ha]
    exact checked_of_fail rfl _ s
  · rw [exec_ghOneshot, aadLengthCheck_none ha, dataLengthCheck_some hc]
    exact checked_of_fail rfl _ s
  · rw [exec_ghOneshot, aadLengthCheck_none ha, dataLengthCheck_none hc, checked_of_pass rfl, ghash_tableFor,
      blocks_of_length (length_toBytes _), lenBlock_toBytes]
    rfl

end Sys2Proof.Machine
end

section
/-! The commands of a GCM session (42_gcm.md sections 1 and 3): what each check of a command says, and what the command
does once its checks have passed. -/

namespace Sys2Proof.Machine

/-- A check fails after those that pass: the ValidationError it names, written out (60_exceptions.md R202). -/
theorem checked_refuses {cs : List (Option SubCode)} {sub : SubCode} (h : firstFailure cs = some sub)
    (effect : State → State) (s : State) :
    checked cs effect s =
      .next ⟨s.c, s.g, s.pending, s.responses ++ [⟨.validationError, some sub, []⟩]⟩ :=
  checked_of_fail h effect s

theorem ivLengthCheck_some {iv : Bytes} (h : iv.length = 0 ∨ iv.length > Config.ivMaxBytes) :
    ivLengthCheck iv = some .badIvLength := if_pos h

theorem tagLengthCheck_some {t : Bytes} (h : t.length ≠ Config.tagBytes) :
    tagLengthCheck t = some .badTagLength := if_neg h

/-! ## The cells of the phase table that hold a sub-code (R170) -/

theorem initSequence_some {c : GcmContext} (h : c.inSession) :
    gcmSequenceCheck .init c = some .outOfSequence := by
  rcases h with h | h | h <;> simp [gcmSequenceCheck, gcmSequence, failureOf, h]

theorem verifyDecSequence_some {c : GcmContext} (h : c.inSession) :
    gcmSequenceCheck .verifyDec c = some .outOfSequence := by
  rcases h with h | h | h <;> simp [gcmSequenceCheck, gcmSequence, failureOf, h]

theorem aadSequence_of_aadPhase {c : GcmContext} (h : c.phase = .aadPhase) :
    gcmSequenceCheck .aad c = some .aadAlreadySet := by
  simp [gcmSequenceCheck, gcmSequence, failureOf, h]

theorem aadSequence_outOfSequence {c : GcmContext} (ha : c.phase ≠ .aadPhase) (hi : c.phase ≠ .initialized) :
    gcmSequenceCheck .aad c = some .outOfSequence := by
  cases h : c.phase with
  | aadPhase => exact absurd h ha
  | initialized => exact absurd h hi
  | uninitialized | cipherPhase | finalized => simp [gcmSequenceCheck, gcmSequence, failureOf, h]

theorem tagSequence_some {c : GcmContext} (hc : c.phase ≠ .cipherPhase) :
    gcmSequenceCheck .tag c = some .outOfSequence := by
  cases h : c.phase with
  | cipherPhase => exact absurd h hc
  | uninitialized | initialized | aadPhase | finalized => simp [gcmSequenceCheck, gcmSequence, failureOf, h]

/-! ## The initial counter block (R151) -/

theorem length_ivLengthBlock (n : Nat) : (ivLengthBlock n).length = 16 := by simp [ivLengthBlock]

/-- The hash path of J0, for either strategy, as one fold over the blocks of the IV and its length block. -/
theorem deriveJ0_of_length_ne {s : Strategy} {h : Block} {iv : Bytes} (hne : iv.length ≠ Config.fastIvBytes) :
    deriveJ0 s h (tableFor s h) iv = (blocks iv ++ [ivLengthBlock iv.length]).foldl (absorbBySerial h) 0 := by
  rw [deriveJ0, if_neg hne, ghashUpdate_tableFor, ghashUpdate_tableFor, blocks_of_length (length_ivLengthBlock _),
    List.foldl_append]

/-- Settles O44: at 12 bytes the IV and the number 1 fill a block, and at any other length both strategies fold the
bit-serial product. -/
theorem initialCounterBlock : Obligations.InitialCounterBlock := by
  unfold Obligations.InitialCounterBlock
  intro s h iv _
  constructor
  · intro hlen
    rw [deriveJ0, if_pos hlen, toBytes_ofBytes _ (by simp [hlen])]
  · intro hlen
    rw [deriveJ0_of_length_ne hlen]
    rfl

/-! ## GCM_INIT -/

theorem exists_two_of_fits_fKI {ops : List Bytes} (h : FormatFits .fKI ops) : ∃ k iv : Bytes, ops = [k, iv] :=
  List.length_eq_two.mp h

theorem decode_gcmInit (st : Strategy) (k iv : Bytes) :
    decode ⟨commandWord .gcmInit st, [k, iv]⟩ = .ok (.gcmInit st k iv) :=
  decode_word (o := .gcmInit) (fun _ => rfl) _

theorem exec_gcmInit_of_pass {st : Strategy} {k iv : Bytes} {s : State}
    (hidle : s.c.phase = .uninitialized ∨ s.c.phase = .finalized) (hk : k.length = Config.keyBytes)
    (hpos : 0 < iv.length) (hmax : iv.length ≤ Config.ivMaxBytes) :
    exec (.gcmInit st k iv) s =
      .next ((s.setC (sessionInit Config.platform st k iv)).respond (okResponse [])) := by
  rw [exec_gcmInit, initSequence_none hidle, keyLengthCheck_none hk, ivLengthCheck_none hpos hmax,
    checked_of_pass rfl]

/-- Settles O45: the sequence, the key and the IV are checked in this order, and past them the new context is that of
session_init, field by field. -/
theorem gcmInitCommand : Obligations.GcmInitCommand := by
  unfold Obligations.GcmInitCommand
  refine ⟨formErrors_row .gcmInit fun _ => exists_two_of_fits_fKI,
    fun k iv => ⟨decode_gcmInit .reference k iv, decode_gcmInit .table k iv⟩,
    fun st k iv s => ⟨fun hopen => ?_, fun hidle hk => ?_, fun hidle hk hiv => ?_⟩,
    fun st k iv s hidle hk hpos hmax => ?_⟩
  · rw [exec_gcmInit, initSequence_some hopen]
    exact checked_refuses rfl _ s
  · rw [exec_gcmInit, initSequence_none hidle, keyLengthCheck_some hk]
    exact checked_refuses rfl _ s
  · rw [exec_gcmInit, initSequence_none hidle, keyLengthCheck_none hk, ivLengthCheck_some hiv]
    exact checked_refuses rfl _ s
  · rw [exec_gcmInit_of_pass hidle hk hpos hmax]
    rfl

/-! ## GCM_AAD -/

theorem exec_gcmAad_of_pass {a : Bytes} {s : State} (hphase : s.c.phase = .initialized)
    (ha : a.length ≤ Config.aadMaxBytes) :
    exec (.gcmAad a) s = .next ((s.setC (sessionAad a s.c)).respond (okResponse [])) := by
  rw [exec_gcmAad, aadSequence_none hphase, aadLengthCheck_none ha, checked_of_pass rfl]

/-- Settles O46: the phase is checked before the length, and past both the context is that of session_aad. -/
theorem gcmAadCommand : Obligations.GcmAadCommand := by
  unfold Obligations.GcmAadCommand
  refine ⟨formErrors_row .gcmAad fun _ => exists_bytes_of_fits_fD,
    fun _ => decode_word (o := .gcmAad) (s := .reference) nofun _,
    fun a s => ⟨fun hphase => ?_, fun hnotAad hnotInit => ?_, fun hphase ha => ?_⟩, fun a s hphase ha => ?_⟩
  · rw [exec_gcmAad, aadSequence_of_aadPhase hphase]
    exact checked_refuses rfl _ s
  · rw [exec_gcmAad, aadSequence_outOfSequence hnotAad hnotInit]
    exact checked_refuses rfl _ s
  · rw [exec_gcmAad, aadSequence_none hphase, aadLengthCheck_some ha]
    exact checked_refuses rfl _ s
  · rw [exec_gcmAad_of_pass hphase ha]
    rfl

/-! ## GCM_ENC and GCM_DEC: one pass in either direction (R153) -/

/-- The command that passes data in a direction. -/
def cryptInstr (dir : Direction) (data : Bytes) : Instr :=
  match dir with
  | .encrypt => .gcmEnc data
  | .decrypt => .gcmDec data

/-- The sequence check of the command (R170). -/
def cryptSequenceCheck (dir : Direction) (c : GcmContext) : Option SubCode :=
  failureOf (cipherSequence dir c.phase c.dir)

/-- The phases that take data in a direction: before the first data of a session, and after data in that direction. -/
def GcmContext.takesData (dir : Direction) (c : GcmContext) : Prop :=
  c.phase = .initialized ∨ c.phase = .aadPhase ∨ (c.phase = .cipherPhase ∧ c.dir = some dir)

section
variable {dir : Direction} {c : GcmContext}

theorem cryptSequence_none (h : c.takesData dir) : cryptSequenceCheck dir c = none := by
  cases dir with
  | encrypt => exact encSequence_none h
  | decrypt => exact decSequence_none h

theorem cryptSequence_outOfSequence (h : c.phase = .uninitialized ∨ c.phase = .finalized) :
    cryptSequenceCheck dir c = some .outOfSequence := by
  rcases h with h | h <;> simp [cryptSequenceCheck, cipherSequence, failureOf, h]

theorem cryptSequence_directionMixed (h : c.phase = .cipherPhase) (hdir : c.dir ≠ some dir) :
    cryptSequenceCheck dir c = some .directionMixed := by
  simp [cryptSequenceCheck, cipherSequence, failureOf, h, hdir]

end

/-- The context after a pass, field by field: the accumulator takes the ciphertext, which is the output or the input. -/
theorem sessionCrypt_context (p : Platform) (dir : Direction) (data : Bytes) (c : GcmContext) :
    (sessionCrypt p dir data c).1 =
      { c with
        ctr := inc32^[blockCount data.length] c.ctr
        y := ghashUpdate c.strat c.y c.h c.tbl (hashedText dir data (sessionCrypt p dir data c).2)
        cLen := c.cLen + BitVec.ofNat 64 data.length
        dir := some dir
        phase := .cipherPhase } := by
  have hlen : BitVec.ofNat 64 (c.cLen.toNat + data.length) = c.cLen + BitVec.ofNat 64 data.length := by
    rw [BitVec.ofNat_add, BitVec.ofNat_toNat, BitVec.setWidth_eq]
  simp only [sessionCrypt, (cryptBlocks_spec p dir data c).context, hlen]

theorem length_sessionCrypt (p : Platform) (dir : Direction) (data : Bytes) (c : GcmContext) :
    (sessionCrypt p dir data c).2.length = data.length := (cryptBlocks_spec p dir data c).length

theorem blockAt_sessionCrypt (p : Platform) (dir : Direction) {data : Bytes} (c : GcmContext) {j : Nat}
    (hj : j < blockCount data.length) :
    blockAt (sessionCrypt p dir data c).2 j = xorKeystream (blockAt data j) (p.cipher c.key (inc32^[j] c.ctr)) :=
  (cryptBlocks_spec p dir data c).block j hj

section
variable {dir : Direction} {data : Bytes} {s : State}

theorem exec_cryptInstr (dir : Direction) (data : Bytes) (s : State) :
    exec (cryptInstr dir data) s =
      checked [cryptSequenceCheck dir s.c, dataLengthCheck (s.c.cLen.toNat + data.length)]
        (fun s => (s.setC (sessionCrypt Config.platform dir data s.c).1).respond
          (okResponse (sessionCrypt Config.platform dir data s.c).2)) s := by
  cases dir <;> rfl

theorem exec_cryptInstr_outOfSequence (h : s.c.phase = .uninitialized ∨ s.c.phase = .finalized) :
    exec (cryptInstr dir data) s =
      .next ⟨s.c, s.g, s.pending, s.responses ++ [⟨.validationError, some .outOfSequence, []⟩]⟩ := by
  rw [exec_cryptInstr, cryptSequence_outOfSequence h]
  exact checked_refuses rfl _ s

theorem exec_cryptInstr_directionMixed (h : s.c.phase = .cipherPhase) (hdir : s.c.dir ≠ some dir) :
    exec (cryptInstr dir data) s =
      .next ⟨s.c, s.g, s.pending, s.responses ++ [⟨.validationError, some .directionMixed, []⟩]⟩ := by
  rw [exec_cryptInstr, cryptSequence_directionMixed h hdir]
  exact checked_refuses rfl _ s

theorem exec_cryptInstr_badDataLength (h : s.c.takesData dir)
    (hlen : s.c.cLen.toNat + data.length > Config.cMaxBytes) :
    exec (cryptInstr dir data) s =
      .next ⟨s.c, s.g, s.pending, s.responses ++ [⟨.validationError, some .badDataLength, []⟩]⟩ := by
  rw [exec_cryptInstr, cryptSequence_none h, dataLengthCheck_some hlen]
  exact checked_refuses rfl _ s

theorem exec_cryptInstr_of_pass (h : s.c.takesData dir)
    (hlen : s.c.cLen.toNat + data.length ≤ Config.cMaxBytes) :
    exec (cryptInstr dir data) s =
      .next ((s.setC (sessionCrypt Config.platform dir data s.c).1).respond
        (okResponse (sessionCrypt Config.platform dir data s.c).2)) := by
  rw [exec_cryptInstr, cryptSequence_none h, dataLengthCheck_none hlen, checked_of_pass rfl]

/-- Past its checks the command answers the pass over its data: each output block, and every field it writes. -/
theorem exec_cryptInstr_effect (h : s.c.takesData dir)
    (hlen : s.c.cLen.toNat + data.length ≤ Config.cMaxBytes) :
    ∃ out : Bytes, out.length = data.length ∧
      (∀ j : Nat, j < blockCount data.length →
        blockAt out j = xorKeystream (blockAt data j) (Config.platform.cipher s.c.key (inc32^[j] s.c.ctr))) ∧
      exec (cryptInstr dir data) s =
        .next ⟨{ s.c with
            ctr := inc32^[blockCount data.length] s.c.ctr
            y := ghashUpdate s.c.strat s.c.y s.c.h s.c.tbl (hashedText dir data out)
            cLen := s.c.cLen + BitVec.ofNat 64 data.length
            dir := some dir
            phase := .cipherPhase },
          s.g, s.pending, s.responses ++ [okResponse out]⟩ := by
  refine ⟨_, length_sessionCrypt Config.platform dir data s.c,
    fun _ => blockAt_sessionCrypt Config.platform dir s.c, ?_⟩
  rw [exec_cryptInstr_of_pass h hlen, ← sessionCrypt_context]
  rfl

end

/-- Settles O47: the pass over the data in the direction ENCRYPT, of which C.Y absorbs the output. -/
theorem gcmEncCommand : Obligations.GcmEncCommand := by
  unfold Obligations.GcmEncCommand
  exact ⟨formErrors_row .gcmEnc fun _ => exists_bytes_of_fits_fD,
    fun _ => decode_word (o := .gcmEnc) (s := .reference) nofun _,
    fun _ _ => ⟨exec_cryptInstr_outOfSequence (dir := .encrypt), exec_cryptInstr_directionMixed (dir := .encrypt),
      exec_cryptInstr_badDataLength (dir := .encrypt)⟩,
    fun _ _ => exec_cryptInstr_effect (dir := .encrypt)⟩

/-- Settles O48: the pass over the data in the direction DECRYPT, of which C.Y absorbs the input. -/
theorem gcmDecCommand : Obligations.GcmDecCommand := by
  unfold Obligations.GcmDecCommand
  exact ⟨formErrors_row .gcmDec fun _ => exists_bytes_of_fits_fD,
    fun _ => decode_word (o := .gcmDec) (s := .reference) nofun _,
    fun _ _ => ⟨exec_cryptInstr_outOfSequence (dir := .decrypt), exec_cryptInstr_directionMixed (dir := .decrypt),
      exec_cryptInstr_badDataLength (dir := .decrypt)⟩,
    fun _ _ => exec_cryptInstr_effect (dir := .decrypt)⟩

/-! ## GCM_TAG and GCM_ABORT -/

theorem exec_gcmTag_outOfSequence {s : State} (h : s.c.phase ≠ .cipherPhase) :
    exec .gcmTag s =
      .next ⟨s.c, s.g, s.pending, s.responses ++ [⟨.validationError, some .outOfSequence, []⟩]⟩ := by
  rw [exec_gcmTag, tagSequence_some h]
  exact checked_refuses rfl _ s

theorem exec_gcmTag_of_pass {s : State} (h : s.c.phase = .cipherPhase) :
    exec .gcmTag s =
      .next ((s.setC (sessionTag Config.platform s.c).1).respond
        (okResponse (sessionTag Config.platform s.c).2.toBytes)) := by
  rw [exec_gcmTag, tagSequence_none h, checked_of_pass rfl]

/-- Settles O49: the phase is the only check, and past it the context and the tag are those of session_tag. -/
theorem gcmTagCommand : Obligations.GcmTagCommand := by
  unfold Obligations.GcmTagCommand
  refine ⟨formErrors_row .gcmTag fun _ => nil_of_fits_fNone, decode_word (o := .gcmTag) (s := .reference) nofun _,
    fun _ => exec_gcmTag_outOfSequence, fun s hphase _ _ => ?_⟩
  rw [exec_gcmTag_of_pass hphase]
  rfl

theorem exec_gcmAbort_effect (s : State) :
    exec .gcmAbort s = .next ((s.setC abortedContext).respond (okResponse [])) := by
  rw [exec_gcmAbort, checked_of_pass rfl]

/-- Settles O53: the phase table takes GCM_ABORT in every phase, and the context it leaves is a constant. -/
theorem gcmAbortCommand : Obligations.GcmAbortCommand := by
  unfold Obligations.GcmAbortCommand
  refine ⟨formErrors_row .gcmAbort fun _ => nil_of_fits_fNone,
    decode_word (o := .gcmAbort) (s := .reference) nofun _, fun s => ?_⟩
  rw [exec_gcmAbort_effect]
  rfl

end Sys2Proof.Machine
end

section
/-! GCM_VERIFY_DEC as GCM_INIT, GCM_AAD, GCM_DEC and GCM_TAG in a row (42_gcm.md R160), with the comparison of R161. -/

namespace Sys2Proof.Machine

/-! ## The comparison of tags -/

theorem foldl_or_eq_zero_iff (l : Bytes) (z : Byte) : l.foldl (· ||| ·) z = 0#8 ↔ z = 0#8 ∧ ∀ x ∈ l, x = 0#8 := by
  induction l generalizing z with
  | nil => simp
  | cons x l ih => rw [List.foldl_cons, ih, BitVec.or_eq_zero_iff, List.forall_mem_cons, and_assoc]

/-- Two strings of one length differ nowhere exactly when the XOR of every pair of bytes is zero. -/
theorem zipWith_xor_all_zero_iff {t u : Bytes} (h : t.length = u.length) :
    (∀ x ∈ List.zipWith (· ^^^ ·) t u, x = 0#8) ↔ t = u := by
  induction t generalizing u with
  | nil => simp [List.length_eq_zero_iff.mp h.symm]
  | cons a t ih =>
    obtain _ | ⟨b, u⟩ := u
    · simp at h
    · rw [List.zipWith_cons_cons, List.forall_mem_cons, ih (Nat.succ.inj h), BitVec.xor_eq_zero_iff, List.cons.injEq]

theorem tagsEqual_iff_eq {t u : Bytes} (h : t.length = u.length) : tagsEqual t u = true ↔ t = u := by
  rw [tagsEqual, beq_iff_eq, foldl_or_eq_zero_iff, zipWith_xor_all_zero_iff h]
  simp

/-! ## The command -/

theorem exists_five_of_fits_fKIACT {ops : List Bytes} (h : FormatFits .fKIACT ops) :
    ∃ k iv a c t : Bytes, ops = [k, iv, a, c, t] := by
  match ops, h with
  | [k, iv, a, c, t], _ => exact ⟨k, iv, a, c, t, rfl⟩

theorem decode_gcmVerifyDec (st : Strategy) (k iv a c t : Bytes) :
    decode ⟨commandWord .gcmVerifyDec st, [k, iv, a, c, t]⟩ = .ok (.gcmVerifyDec st k iv a c t) :=
  decode_word (o := .gcmVerifyDec) (fun _ => rfl) _

/-- The session that decrypts the ciphertext, before its tag: the context and the plaintext (R160). -/
def openedSession (p : Platform) (st : Strategy) (k iv a c : Bytes) : GcmContext × Bytes :=
  sessionCrypt p .decrypt c (sessionAad a (sessionInit p st k iv))

/-- The plaintext is released exactly when the computed tag is the expected one. -/
theorem verifyDecEffect_response {p : Platform} {st : Strategy} {k iv a c t : Bytes}
    (ht : t.length = Config.tagBytes) :
    (verifyDecEffect p st k iv a c t).2 =
      if (sessionTag p (openedSession p st k iv a c).1).2.toBytes = t then
        okResponse (openedSession p st k iv a c).2
      else authFailureResponse c.length :=
  if_congr (tagsEqual_iff_eq ((length_toBytes _).trans ht.symm)) rfl rfl

theorem exec_gcmVerifyDec_of_pass {st : Strategy} {k iv a c t : Bytes} {s : State}
    (hidle : s.c.phase = .uninitialized ∨ s.c.phase = .finalized) (hk : k.length = Config.keyBytes)
    (hpos : 0 < iv.length) (hmax : iv.length ≤ Config.ivMaxBytes) (ha : a.length ≤ Config.aadMaxBytes)
    (hc : c.length ≤ Config.cMaxBytes) (ht : t.length = Config.tagBytes) :
    exec (.gcmVerifyDec st k iv a c t) s =
      .next ((s.setC (verifyDecEffect Config.platform st k iv a c t).1).respond
        (verifyDecEffect Config.platform st k iv a c t).2) := by
  rw [exec_gcmVerifyDec, verifyDecSequence_none hidle, keyLengthCheck_none hk, ivLengthCheck_none hpos hmax,
    aadLengthCheck_none ha, dataLengthCheck_none hc, tagLengthCheck_none ht, checked_of_pass rfl]

/-- Settles O51: each check is reached when those before it pass, and past them the command is the four commands in a
row, with the release of their plaintext decided by their tag. -/
theorem gcmVerifyDecCommand : Obligations.GcmVerifyDecCommand := by
  unfold Obligations.GcmVerifyDecCommand
  refine ⟨formErrors_row .gcmVerifyDec fun _ => exists_five_of_fits_fKIACT,
    fun k iv a c t => ⟨decode_gcmVerifyDec .reference k iv a c t, decode_gcmVerifyDec .table k iv a c t⟩,
    fun st k iv a c t s => ⟨fun hopen => ?_, fun hidle hk => ?_, fun hidle hk hiv => ?_,
      fun hidle hk ⟨hpos, hmax⟩ ha => ?_, fun hidle hk ⟨hpos, hmax⟩ ha hc => ?_,
      fun hidle hk ⟨hpos, hmax⟩ ha hc ht => ?_⟩,
    fun st k iv a c t s hidle hk hpos hmax ha hc ht => ?_⟩
  · rw [exec_gcmVerifyDec, verifyDecSequence_some hopen]
    exact checked_refuses rfl _ s
  · rw [exec_gcmVerifyDec, verifyDecSequence_none hidle, keyLengthCheck_some hk]
    exact checked_refuses rfl _ s
  · have hbad : iv.length = 0 ∨ iv.length > 2 ^ 61 - 1 := by omega
    rw [exec_gcmVerifyDec, verifyDecSequence_none hidle, keyLengthCheck_none hk, ivLengthCheck_some hbad]
    exact checked_refuses rfl _ s
  · rw [exec_gcmVerifyDec, verifyDecSequence_none hidle, keyLengthCheck_none hk, ivLengthCheck_none hpos hmax,
      aadLengthCheck_some ha]
    exact checked_refuses rfl _ s
  · rw [exec_gcmVerifyDec, verifyDecSequence_none hidle, keyLengthCheck_none hk, ivLengthCheck_none hpos hmax,
      aadLengthCheck_none ha, dataLengthCheck_some hc]
    exact checked_refuses rfl _ s
  · rw [exec_gcmVerifyDec, verifyDecSequence_none hidle, keyLengthCheck_none hk, ivLengthCheck_none hpos hmax,
      aadLengthCheck_none ha, dataLengthCheck_none hc, tagLengthCheck_some ht]
    exact checked_refuses rfl _ s
  · refine ⟨_, _, _, _, (openedSession Config.platform st k iv a c).2,
      (sessionTag Config.platform (openedSession Config.platform st k iv a c).1).2.toBytes,
      exec_gcmInit_of_pass hidle hk hpos hmax, exec_gcmAad_of_pass rfl ha,
      exec_cryptInstr_of_pass (dir := .decrypt) (.inr (.inl rfl)) ((Nat.zero_add _).trans_le hc),
      exec_gcmTag_of_pass rfl, by simp [okResponse, openedSession], rfl, rfl, length_toBytes _,
      length_sessionCrypt _ _ _ _, ?_⟩
    rw [exec_gcmVerifyDec_of_pass hidle hk hpos hmax ha hc ht, verifyDecEffect_response ht]
    rfl

end Sys2Proof.Machine
end

section
/-! The phase table of the GCM session (42_gcm.md R170), read off from the sequence check that every command makes first. -/

namespace Sys2Proof.Machine

/-! ## The checks that come after the sequence check -/

/-- The sub-codes of the phase table. -/
def IsSequenceError (sub : SubCode) : Prop :=
  sub = .outOfSequence ∨ sub = .aadAlreadySet ∨ sub = .directionMixed

/-- The check raises no sub-code of the phase table. -/
def NoSequenceCheck (check : Option SubCode) : Prop := ∀ sub, check = some sub → ¬ IsSequenceError sub

theorem noSequenceCheck_ite (P : Prop) [Decidable P] {sub : SubCode} (h : ¬ IsSequenceError sub) :
    NoSequenceCheck (if P then none else some sub) ∧ NoSequenceCheck (if P then some sub else none) := by
  by_cases hP : P <;> simp [NoSequenceCheck, hP, h]

theorem keyLengthCheck_noSequence (k : Bytes) : NoSequenceCheck (keyLengthCheck k) :=
  (noSequenceCheck_ite _ (by simp [IsSequenceError])).1

theorem ivLengthCheck_noSequence (iv : Bytes) : NoSequenceCheck (ivLengthCheck iv) :=
  (noSequenceCheck_ite _ (by simp [IsSequenceError])).2

theorem aadLengthCheck_noSequence (a : Bytes) : NoSequenceCheck (aadLengthCheck a) :=
  (noSequenceCheck_ite _ (by simp [IsSequenceError])).2

theorem dataLengthCheck_noSequence (n : Nat) : NoSequenceCheck (dataLengthCheck n) :=
  (noSequenceCheck_ite _ (by simp [IsSequenceError])).2

theorem tagLengthCheck_noSequence (t : Bytes) : NoSequenceCheck (tagLengthCheck t) :=
  (noSequenceCheck_ite _ (by simp [IsSequenceError])).1

/-- What the first failing check raises, one of the checks raises. -/
theorem mem_of_firstFailure {cs : List (Option SubCode)} {sub : SubCode} (h : firstFailure cs = some sub) :
    some sub ∈ cs := by
  obtain ⟨check, hmem, hcheck⟩ := List.exists_of_findSome?_eq_some h
  exact (id hcheck : check = some sub) ▸ hmem

/-! ## A command in a cell of the table -/

/-- A cell with a phase: the command ends there, or raises a ValidationError that is none of the table and stays. -/
def EndsIn (s t : State) (r : Response) (ph : Phase) : Prop :=
  (r.status ≠ .validationError → t.c.phase = ph) ∧
    (r.status = .validationError → t.c.phase = s.c.phase ∧ r.sub ≠ some .outOfSequence ∧
      r.sub ≠ some .aadAlreadySet ∧ r.sub ≠ some .directionMixed)

theorem eq_of_responses {s t : State} {r r' : Response} (h : t.responses = s.responses ++ [r])
    (h' : t.responses = s.responses ++ [r']) : r = r' := by
  simpa using h.symm.trans h'

/-- Where the effect of a command is known, so are the response and the context. -/
theorem response_context_of_exec {i : Instr} {s t : State} {r out : Response} {c : GcmContext}
    (h : exec i s = .next ((s.setC c).respond out)) (ht : exec i s = .next t)
    (hr : t.responses = s.responses ++ [r]) : r = out ∧ t.c = c := by
  rw [h] at ht
  injection ht with ht
  subst ht
  exact ⟨eq_of_responses hr rfl, rfl⟩

section
variable {s t : State} {r : Response} {check : Option SubCode} {checks : List (Option SubCode)}
  {effect : State → State} {i : Instr} (ht : exec i s = .next t) (hr : t.responses = s.responses ++ [r])
  (hexec : exec i s = checked (check :: checks) effect s)
include ht hr hexec

/-- A cell with a sub-code. -/
theorem refused_of_sequence_some {sub : SubCode} (hcheck : check = some sub) :
    r = validationResponse sub ∧ t.c.phase = s.c.phase := by
  have hrefused : exec i s = .next ((s.setC s.c).respond (validationResponse sub)) := by
    rw [hexec, hcheck, checked_of_fail rfl, setC_self, State.raiseValidation]
  obtain ⟨hresponse, hc⟩ := response_context_of_exec hrefused ht hr
  exact ⟨hresponse, congrArg GcmContext.phase hc⟩

theorem endsIn_of_sequence_none (hcheck : check = none) (hchecks : ∀ c ∈ checks, NoSequenceCheck c)
    {c : GcmContext} {out : Response} (heffect : effect s = (s.setC c).respond out)
    (hstatus : out.status ≠ .validationError) : EndsIn s t r c.phase := by
  rw [hexec, hcheck] at ht
  obtain ⟨sub, hsub, rfl⟩ | ⟨-, rfl⟩ := checked_cases ht
  · obtain rfl := eq_of_responses hr rfl
    have hnot := hchecks _ (mem_of_firstFailure hsub) sub rfl
    simpa [EndsIn, IsSequenceError, validationResponse] using hnot
  · rw [heffect] at hr ⊢
    obtain rfl := eq_of_responses hr rfl
    exact ⟨fun _ => rfl, fun hv => absurd hv hstatus⟩

end

/-- The tag of GCM_VERIFY_DEC is right or wrong, and neither is a ValidationError. -/
theorem verifyDecEffect_status {p : Platform} {st : Strategy} {k iv a c t : Bytes} :
    (verifyDecEffect p st k iv a c t).2.status ≠ .validationError := by
  unfold verifyDecEffect
  dsimp only
  split <;> simp

/-- The commands that take data, in the row of their direction. -/
theorem cryptInstr_phases {dir : Direction} {data : Bytes} {s t : State} {r : Response}
    (ht : exec (cryptInstr dir data) s = .next t) (hr : t.responses = s.responses ++ [r]) :
    (s.c.takesData dir → EndsIn s t r .cipherPhase) ∧
      (s.c.phase = .cipherPhase ∧ s.c.dir ≠ some dir →
        r = validationResponse .directionMixed ∧ t.c.phase = .cipherPhase) ∧
      (s.c.phase = .uninitialized ∨ s.c.phase = .finalized →
        r = validationResponse .outOfSequence ∧ t.c.phase = s.c.phase) := by
  have hexec := exec_cryptInstr dir data s
  refine ⟨fun htakes => ?_, fun ⟨hphase, hdir⟩ => ?_, fun hphase => ?_⟩
  · exact endsIn_of_sequence_none ht hr hexec (cryptSequence_none htakes)
      (by simp [dataLengthCheck_noSequence]) rfl nofun
  · rw [← hphase]
    exact refused_of_sequence_some ht hr hexec (cryptSequence_directionMixed hphase hdir)
  · exact refused_of_sequence_some ht hr hexec (cryptSequence_outOfSequence hphase)

/-- Settles O26: each cell is what the sequence check answers there. Where it passes, only a length check can refuse the
command, and its effect writes the phase of the cell. The other commands write no field of C. -/
theorem phaseTable : Obligations.PhaseTable := by
  unfold Obligations.PhaseTable
  intro i s t r ht hr oos goes
  cases i with
  | gcmInit st k iv =>
    have hexec := exec_gcmInit st k iv s
    exact ⟨fun hidle => endsIn_of_sequence_none ht hr hexec (initSequence_none hidle)
        (by simp [keyLengthCheck_noSequence, ivLengthCheck_noSequence]) rfl nofun,
      fun hopen => refused_of_sequence_some ht hr hexec (initSequence_some hopen)⟩
  | gcmAad a =>
    have hexec := exec_gcmAad a s
    refine ⟨fun hphase => ?_, fun hphase => ?_, fun hphase => ?_⟩
    · exact endsIn_of_sequence_none ht hr hexec (aadSequence_none hphase)
        (by simp [aadLengthCheck_noSequence]) rfl nofun
    · rw [← hphase]
      exact refused_of_sequence_some ht hr hexec (aadSequence_of_aadPhase hphase)
    · refine refused_of_sequence_some ht hr hexec (aadSequence_outOfSequence ?_ ?_) <;>
        rcases hphase with h | h | h <;> simp [h]
  | gcmEnc d => exact cryptInstr_phases (dir := .encrypt) ht hr
  | gcmDec d => exact cryptInstr_phases (dir := .decrypt) ht hr
  | gcmTag =>
    refine ⟨fun hphase => ?_, fun hphase => refused_of_sequence_some ht hr (exec_gcmTag s) (tagSequence_some hphase)⟩
    obtain ⟨rfl, hc⟩ := response_context_of_exec (exec_gcmTag_of_pass hphase) ht hr
    exact ⟨rfl, congrArg GcmContext.phase hc⟩
  | gcmVerifyDec st k iv a c tag =>
    have hexec := exec_gcmVerifyDec st k iv a c tag s
    exact ⟨fun hidle => endsIn_of_sequence_none ht hr hexec (verifyDecSequence_none hidle)
        (by simp [keyLengthCheck_noSequence, ivLengthCheck_noSequence, aadLengthCheck_noSequence,
          dataLengthCheck_noSequence, tagLengthCheck_noSequence]) rfl verifyDecEffect_status,
      fun hopen => refused_of_sequence_some ht hr hexec (verifyDecSequence_some hopen)⟩
  | gcmAbort =>
    obtain ⟨rfl, hc⟩ := response_context_of_exec (exec_gcmAbort_effect s) ht hr
    exact ⟨rfl, congrArg GcmContext.phase hc⟩
  | gfMul x y =>
    have hc : t.c = s.c := (response_context_of_exec (exec_gfMul x y s) ht hr).2
    exact congrArg GcmContext.phase hc
  | ghInit | ghUpdate | ghFinal | ghReset | ghOneshot =>
    have hc : t.c = s.c := ((contextsDisjoint _ s s t t ht ht).2 (by dsimp only [Instr.isGh, Instr.opcode]; decide)).1
    exact congrArg GcmContext.phase hc

end Sys2Proof.Machine
end

section
/-! The encoder against the decoder (30_encoding.md sections 1 and 2): commands and words, frames on a byte stream. -/

namespace Sys2Proof.Machine

/-! ## Words and operand lists -/

/-- R92: S = 1 only in the word of an opcode with a strategy. -/
theorem usesStrategy_of_strategy_bit {i : Instr} (h : i.strategy.bit = true) : i.opcode.usesStrategy = true := by
  cases i with
  | ghInit | ghOneshot | gcmInit | gcmVerifyDec => rfl
  | gfMul | ghUpdate | ghFinal | ghReset | gcmAad | gcmEnc | gcmDec | gcmTag | gcmAbort => nomatch h

theorem decodeOperands_operands (i : Instr) : decodeOperands i.opcode i.strategy i.operands = some i := by
  cases i <;> simp [decodeOperands, Instr.opcode, Instr.strategy, Instr.operands]

theorem decode_encode (i : Instr) : decode (encode i) = .ok i := by
  rw [encode, decode_word usesStrategy_of_strategy_bit, decodeOperands_operands]

/-- A decoded operand list is that of the command it gives, which has the opcode and takes its strategy from the word,
or has none. -/
theorem decodeOperands_eq_some {o : Opcode} {s : Strategy} {ops : List Bytes} {i : Instr}
    (h : decodeOperands o s ops = some i) :
    i.opcode = o ∧ i.operands = ops ∧ i.strategy = if o.usesStrategy then s else .reference := by
  cases o with
  | ghFinal | ghReset | gcmTag | gcmAbort =>
    obtain _ | _ := ops <;> simp only [decodeOperands, reduceCtorEq, Option.some.injEq] at h
    exact h ▸ ⟨rfl, rfl, rfl⟩
  | ghUpdate | gcmAad | gcmEnc | gcmDec =>
    rcases ops with _ | ⟨d, _ | _⟩ <;> simp only [decodeOperands, reduceCtorEq, Option.some.injEq] at h
    exact h ▸ ⟨rfl, rfl, rfl⟩
  | gcmInit =>
    rcases ops with _ | ⟨k, _ | ⟨iv, _ | _⟩⟩ <;> simp only [decodeOperands, reduceCtorEq, Option.some.injEq] at h
    exact h ▸ ⟨rfl, rfl, rfl⟩
  | gcmVerifyDec =>
    rcases ops with _ | ⟨k, _ | ⟨iv, _ | ⟨a, _ | ⟨c, _ | ⟨t, _ | _⟩⟩⟩⟩⟩ <;>
      simp only [decodeOperands, reduceCtorEq, Option.some.injEq] at h
    exact h ▸ ⟨rfl, rfl, rfl⟩
  | ghInit =>
    rcases ops with _ | ⟨b, _ | _⟩ <;> simp only [decodeOperands, reduceCtorEq, Option.map_eq_some_iff] at h
    obtain ⟨x, hx, rfl⟩ := h
    obtain ⟨-, rfl⟩ := fixedOperand_some hx
    exact ⟨rfl, rfl, rfl⟩
  | ghOneshot =>
    rcases ops with _ | ⟨b, _ | ⟨a, _ | ⟨c, _ | _⟩⟩⟩ <;>
      simp only [decodeOperands, reduceCtorEq, Option.map_eq_some_iff] at h
    obtain ⟨x, hx, rfl⟩ := h
    obtain ⟨-, rfl⟩ := fixedOperand_some hx
    exact ⟨rfl, rfl, rfl⟩
  | gfMul =>
    rcases ops with _ | ⟨a, _ | ⟨b, _ | _⟩⟩ <;> simp only [decodeOperands, reduceCtorEq] at h
    split at h
    · rename_i x y hx hy
      obtain ⟨-, rfl⟩ := fixedOperand_some hx
      obtain ⟨-, rfl⟩ := fixedOperand_some hy
      injection h with h
      subst h
      exact ⟨rfl, rfl, rfl⟩
    · nomatch h

/-- What decodes to a command has an opcode of the map, right bits, and operands that give the command. -/
theorem decode_eq_ok {cmd : Command} {i : Instr} (h : decode cmd = .ok i) :
    ∃ o, Opcode.ofCode (opcField cmd.cw) = some o ∧ WordBitsOk o cmd.cw ∧
      decodeOperands o (Strategy.ofBit (strategyBit cmd.cw)) cmd.ops = some i := by
  unfold decode at h
  split at h
  · nomatch h
  rename_i o ho
  split at h
  · nomatch h
  rename_i hbits
  split at h
  · nomatch h
  rename_i j hj
  injection h with h
  exact ⟨o, ho, wordBitsOk_iff.mpr hbits, h ▸ hj⟩

/-- A word with right bits is the word of its opcode and its strategy. -/
theorem commandWord_of_bits {o : Opcode} {cw : BitVec 16} (ho : Opcode.ofCode (opcField cw) = some o)
    (hbits : WordBitsOk o cw) :
    commandWord o (if o.usesStrategy then Strategy.ofBit (strategyBit cw) else .reference) = cw := by
  rw [ofCode_opcField_eq_some_iff] at ho
  obtain ⟨hrsv, hs⟩ := hbits
  rw [← usesStrategy_iff] at hs
  rw [← BitVec.toNat_inj, toNat_commandWord]
  cases hbit : o.usesStrategy <;> by_cases hcw : cw.toNat / 256 % 2 = 1 <;>
    simp [hbit, hcw, strategyBit_eq, Strategy.bit, Strategy.ofBit] at hs ⊢ <;> omega

/-- Settles O5: the word is rebuilt from its opcode and its strategy bit, and the operands are written back as they were
read. -/
theorem decodeEncodeAgree : Obligations.DecodeEncodeAgree := by
  unfold Obligations.DecodeEncodeAgree
  refine ⟨decode_encode, fun cmd i h => ?_⟩
  obtain ⟨o, ho, hbits, hops⟩ := decode_eq_ok h
  obtain ⟨rfl, hi, hs⟩ := decodeOperands_eq_some hops
  rw [encode, hi, hs, commandWord_of_bits ho hbits]

/-! ## Frames (R96, R97) -/

theorem operandFits_iff {b : Bytes} : operandFits b = true ↔ b.length < 256 ^ 8 := by
  rw [operandFits, decide_eq_true_iff]
  rfl

/-- A string behind its eight-byte length is cut off a stream where it ends. -/
theorem take_drop_operandFrame {b : Bytes} (h : b.length < 256 ^ 8) (rest : Bytes) :
    intBE ((operandFrame b ++ rest).take 8) = b.length ∧ (operandFrame b ++ rest).drop 8 = b ++ rest := by
  rw [operandFrame, List.append_assoc, List.take_left' (length_beBytes _ _), List.drop_left' (length_beBytes _ _),
    intBE_beBytes_of_lt h]
  exact ⟨rfl, rfl⟩

theorem parseOperands_flatMap {ops : List Bytes} (h : ∀ b ∈ ops, b.length < 256 ^ 8) (rest : Bytes) :
    parseOperands ops.length (ops.flatMap operandFrame ++ rest) = some (ops, rest) := by
  induction ops with
  | nil => rfl
  | cons b ops ih =>
    obtain ⟨hb, hops⟩ := List.forall_mem_cons.mp h
    obtain ⟨hlen, hbody⟩ := take_drop_operandFrame hb (ops.flatMap operandFrame ++ rest)
    have hlong : ¬ (operandFrame b ++ (ops.flatMap operandFrame ++ rest)).length < 8 := by
      simp [operandFrame]
    have hwhole : ¬ (b ++ (ops.flatMap operandFrame ++ rest)).length < b.length := by simp
    rw [List.flatMap_cons, List.append_assoc, List.length_cons, parseOperands, if_neg hlong]
    simp only [hlen, hbody, if_neg hwhole, List.drop_left, List.take_left, ih hops]

/-- R96: the frame of a command, on a stream. -/
theorem parse_frame {cmd : Command} (h : cmd.wf = true) (rest : Bytes) :
    Command.parse (cmd.frame ++ rest) = some (cmd, rest) := by
  rw [Command.wf, Bool.and_eq_true, decide_eq_true_iff, List.all_eq_true] at h
  obtain ⟨hcount, hfits⟩ := h
  have hops := parseOperands_flatMap (fun b hb => operandFits_iff.mp (hfits b hb)) rest
  have hcw : BitVec.ofNat 16 (intBE (beBytes 2 cmd.cw.toNat)) = cmd.cw := by
    rw [intBE_beBytes_of_lt cmd.cw.isLt, BitVec.ofNat_toNat, BitVec.setWidth_eq]
  have hn : (BitVec.ofNat 8 (cmd.ops.length / 256 ^ 0)).toNat = cmd.ops.length := by
    rw [pow_zero, Nat.div_one, BitVec.toNat_ofNat, Nat.mod_eq_of_lt hcount]
  rw [Command.frame]
  simp only [beBytes, List.cons_append, List.nil_append, Command.parse] at hcw ⊢
  simp only [hn, hops, hcw]

/-- Settles O6, by the length in front of each operand. -/
theorem commandFrameRoundTrip : Obligations.CommandFrameRoundTrip := by
  unfold Obligations.CommandFrameRoundTrip
  exact fun _ rest h => parse_frame h rest

/-- The operands that are not free are blocks, which always fit, and no command has too many. -/
theorem wf_encode (i : Instr) : (encode i).wf = i.wf := by
  have hblock (b : Block) : operandFits b.toBytes = true := by simp [operandFits]
  cases i <;> simp [Command.wf, encode, Instr.operands, Instr.wf, Instr.freeOperands, hblock]

/-- Settles O7: the frame is read back as the command and the operands that the encoder wrote, and these decode to the
command. -/
theorem decodeEncodeBytes : Obligations.DecodeEncodeBytes := by
  unfold Obligations.DecodeEncodeBytes
  intro i rest h
  simp only [decodeBytes, encodeBytes, parse_frame ((wf_encode i).trans h), decode_encode]

theorem statusCode_injective : Function.Injective statusCode := by
  intro a b
  cases a <;> cases b <;> decide

/-- The sub-code that a number stands for (60_exceptions.md R201): the sub-codes are numbered from 1 in their order. -/
def subCodeOf (n : BitVec 8) : Option SubCode := if n = 0#8 then none else some (SubCode.ofNat (n.toNat - 1))

theorem subCodeOf_subCode : Function.LeftInverse subCodeOf subCode := by
  rintro (_ | sub)
  · rfl
  · cases sub <;> rfl

theorem subCode_injective : Function.Injective subCode := subCodeOf_subCode.injective

theorem operandFrame_append_inj {x y a b : Bytes} (hx : x.length < 256 ^ 8) (hy : y.length < 256 ^ 8)
    (h : operandFrame x ++ a = operandFrame y ++ b) : x = y ∧ a = b := by
  obtain ⟨hlenx, hbodyx⟩ := take_drop_operandFrame hx a
  obtain ⟨hleny, hbodyy⟩ := take_drop_operandFrame hy b
  rw [h, hleny] at hlenx
  rw [h, hbodyy] at hbodyx
  exact List.append_inj hbodyx.symm hlenx.symm

/-- Settles O8: the codes are one-to-one, and the length in front of the output says where it ends. -/
theorem responseFrameUnambiguous : Obligations.ResponseFrameUnambiguous := by
  unfold Obligations.ResponseFrameUnambiguous
  rintro ⟨status, sub, out⟩ ⟨status', sub', out'⟩ a b hout hout' h
  have hparts : statusCode status = statusCode status' ∧ subCode sub = subCode sub' ∧
      operandFrame out ++ a = operandFrame out' ++ b := by
    simpa [responseFrame, operandFrame] using h
  obtain ⟨hstatus, hsub, hrest⟩ := hparts
  obtain ⟨rfl, rfl⟩ := operandFrame_append_inj hout hout' hrest
  rw [statusCode_injective hstatus, subCode_injective hsub]
  exact ⟨rfl, rfl⟩

/-- Settles O1: every row by the lemma of its command. -/
theorem opcodeMapDecodes : Obligations.OpcodeMapDecodes := by
  unfold Obligations.OpcodeMapDecodes
  have hplain (o : Opcode) (ops : List Bytes) := decode_word (o := o) (s := .reference) nofun ops
  exact ⟨fun _ _ => decode_gfMul, fun _ hh => ⟨decode_ghInit .reference hh, decode_ghInit .table hh⟩,
    fun _ a c hh => ⟨decode_ghOneshot .reference a c hh, decode_ghOneshot .table a c hh⟩,
    fun d => ⟨hplain .ghUpdate [d], hplain .gcmAad [d], hplain .gcmEnc [d], hplain .gcmDec [d]⟩,
    fun k iv => ⟨decode_gcmInit .reference k iv, decode_gcmInit .table k iv⟩,
    fun k iv a c t => ⟨decode_gcmVerifyDec .reference k iv a c t, decode_gcmVerifyDec .table k iv a c t⟩,
    hplain .ghFinal [], hplain .ghReset [], hplain .gcmTag [], hplain .gcmAbort []⟩

/-- Settles O3: the bits that R92 names are those that are not right for the opcode, and the decoder refuses them. -/
theorem reservedBitsRefused : Obligations.ReservedBitsRefused := by
  unfold Obligations.ReservedBitsRefused
  intro s cmd rest o hpending hcode hbad
  have hbits : ¬ WordBitsOk o cmd.cw := by
    rintro ⟨hrsv, hstrategic⟩
    obtain hne | ⟨hs, hinit, honeshot, hgcmInit, hverify⟩ := hbad
    · exact hne hrsv
    · simpa [hinit, honeshot, hgcmInit, hverify] using hstrategic hs
  exact step_of_decode_error hpending (decode_of_badBits (ofCode_opcField_eq_some_iff.mpr hcode) hbits)

end Sys2Proof.Machine
end

section
/-! Everything a command and a step can do (60_exceptions.md R202, R205): a command is refused, or its checks pass and it
has the effect of its own rule. -/

namespace Sys2Proof.Machine

/-! ## What the checks say when they pass -/

theorem firstFailure_cons_eq_none {check : Option SubCode} {cs : List (Option SubCode)} :
    firstFailure (check :: cs) = none ↔ check = none ∧ firstFailure cs = none := by
  cases check <;> simp

theorem keyLengthCheck_eq_none_iff {k : Bytes} : keyLengthCheck k = none ↔ k.length = Config.keyBytes := by
  simp [keyLengthCheck]

theorem ivLengthCheck_eq_none_iff {iv : Bytes} :
    ivLengthCheck iv = none ↔ 0 < iv.length ∧ iv.length ≤ Config.ivMaxBytes := by
  rw [ivLengthCheck, ite_eq_right_iff]
  simp only [reduceCtorEq, imp_false]
  omega

theorem aadLengthCheck_eq_none_iff {a : Bytes} : aadLengthCheck a = none ↔ a.length ≤ Config.aadMaxBytes := by
  simp [aadLengthCheck]

theorem dataLengthCheck_eq_none_iff {n : Nat} : dataLengthCheck n = none ↔ n ≤ Config.cMaxBytes := by
  simp [dataLengthCheck]

theorem tagLengthCheck_eq_none_iff {t : Bytes} : tagLengthCheck t = none ↔ t.length = Config.tagBytes := by
  simp [tagLengthCheck]

theorem ghSequenceCheck_eq_none_iff {g : GhashContext} : ghSequenceCheck g = none ↔ g.valid = true := by
  simp [ghSequenceCheck]

theorem keyed_of_pass {g : GhashContext} (h : firstFailure [ghSequenceCheck g] = none) : g.valid = true :=
  ghSequenceCheck_eq_none_iff.mp (firstFailure_cons_eq_none.mp h).1

theorem idle_or_inSession (c : GcmContext) :
    (c.phase = .uninitialized ∨ c.phase = .finalized) ∨ c.inSession := by
  unfold GcmContext.inSession
  cases c.phase <;> simp

theorem initSequence_eq_none_iff {c : GcmContext} :
    gcmSequenceCheck .init c = none ↔ c.phase = .uninitialized ∨ c.phase = .finalized := by
  refine ⟨fun h => (idle_or_inSession c).resolve_right fun hopen => ?_, initSequence_none⟩
  simp [initSequence_some hopen] at h

theorem verifyDecSequence_eq_none_iff {c : GcmContext} :
    gcmSequenceCheck .verifyDec c = none ↔ c.phase = .uninitialized ∨ c.phase = .finalized := by
  refine ⟨fun h => (idle_or_inSession c).resolve_right fun hopen => ?_, verifyDecSequence_none⟩
  simp [verifyDecSequence_some hopen] at h

theorem aadSequence_eq_none_iff {c : GcmContext} : gcmSequenceCheck .aad c = none ↔ c.phase = .initialized := by
  cases h : c.phase <;> simp [gcmSequenceCheck, gcmSequence, failureOf, h]

theorem tagSequence_eq_none_iff {c : GcmContext} : gcmSequenceCheck .tag c = none ↔ c.phase = .cipherPhase := by
  cases h : c.phase <;> simp [gcmSequenceCheck, gcmSequence, failureOf, h]

theorem cryptSequence_eq_none_iff {dir : Direction} {c : GcmContext} :
    cryptSequenceCheck dir c = none ↔ c.takesData dir := by
  refine ⟨fun h => ?_, cryptSequence_none⟩
  unfold GcmContext.takesData
  cases hphase : c.phase with
  | initialized | aadPhase => simp
  | uninitialized => simp [cryptSequence_outOfSequence (.inl hphase)] at h
  | finalized => simp [cryptSequence_outOfSequence (.inr hphase)] at h
  | cipherPhase =>
    by_cases hdir : c.dir = some dir
    · simp [hdir]
    · simp [cryptSequence_directionMixed hphase hdir] at h

/-! ## The commands -/

/-- The checks of the command pass in `s`: what they ask of the state and the operands. -/
def Passes (s : State) : Instr → Prop
  | .gfMul _ _ => True
  | .ghInit _ _ => True
  | .ghUpdate _ => s.g.valid = true
  | .ghFinal => s.g.valid = true
  | .ghReset => s.g.valid = true
  | .ghOneshot _ _ a c => a.length ≤ Config.aadMaxBytes ∧ c.length ≤ Config.cMaxBytes
  | .gcmInit _ k iv =>
    (s.c.phase = .uninitialized ∨ s.c.phase = .finalized) ∧ k.length = Config.keyBytes ∧ 0 < iv.length ∧
      iv.length ≤ Config.ivMaxBytes
  | .gcmAad a => s.c.phase = .initialized ∧ a.length ≤ Config.aadMaxBytes
  | .gcmEnc d => s.c.takesData .encrypt ∧ s.c.cLen.toNat + d.length ≤ Config.cMaxBytes
  | .gcmDec d => s.c.takesData .decrypt ∧ s.c.cLen.toNat + d.length ≤ Config.cMaxBytes
  | .gcmTag => s.c.phase = .cipherPhase
  | .gcmVerifyDec _ k iv a c t =>
    (s.c.phase = .uninitialized ∨ s.c.phase = .finalized) ∧ k.length = Config.keyBytes ∧ 0 < iv.length ∧
      iv.length ≤ Config.ivMaxBytes ∧ a.length ≤ Config.aadMaxBytes ∧ c.length ≤ Config.cMaxBytes ∧
      t.length = Config.tagBytes
  | .gcmAbort => True

/-- The GCM context after a command that passes its checks. -/
def contextAfter (s : State) : Instr → GcmContext
  | .gcmInit st k iv => sessionInit Config.platform st k iv
  | .gcmAad a => sessionAad a s.c
  | .gcmEnc d => (sessionCrypt Config.platform .encrypt d s.c).1
  | .gcmDec d => (sessionCrypt Config.platform .decrypt d s.c).1
  | .gcmTag => (sessionTag Config.platform s.c).1
  | .gcmVerifyDec st k iv a c t => (verifyDecEffect Config.platform st k iv a c t).1
  | .gcmAbort => GcmContext.reset
  | _ => s.c

/-- The GHASH context after a command that passes its checks. -/
def ghContextAfter (s : State) : Instr → GhashContext
  | .ghInit st h => { valid := true, strat := st, h := h, y := 0, tbl := tableFor st h }
  | .ghUpdate d => { s.g with y := ghashUpdate s.g.strat s.g.y s.g.h s.g.tbl d }
  | .ghReset => { s.g with y := 0 }
  | _ => s.g

/-- The response of a command that passes its checks. -/
def answerOf (s : State) : Instr → Response
  | .gfMul x y => okResponse (gfmul x y).toBytes
  | .ghFinal => okResponse s.g.y.toBytes
  | .ghOneshot st h a c => okResponse (ghash st h (tableFor st h) a c).toBytes
  | .gcmEnc d => okResponse (sessionCrypt Config.platform .encrypt d s.c).2
  | .gcmDec d => okResponse (sessionCrypt Config.platform .decrypt d s.c).2
  | .gcmTag => okResponse (sessionTag Config.platform s.c).2.toBytes
  | .gcmVerifyDec st k iv a c t => (verifyDecEffect Config.platform st k iv a c t).2
  | _ => okResponse []

/-- The state after a command that passes its checks. -/
def stateAfter (s : State) (i : Instr) : State :=
  ((s.setC (contextAfter s i)).setG (ghContextAfter s i)).respond (answerOf s i)

/-- Everything a command can do: it is refused, or it passes its checks and has its effect. -/
def RefusedOrPasses (i : Instr) (s t : State) : Prop :=
  (∃ sub, t = s.raiseValidation sub) ∨ (Passes s i ∧ t = stateAfter s i)

theorem refusedOrPasses_of_checked {i : Instr} {s t : State} {cs : List (Option SubCode)} {effect : State → State}
    (hexec : exec i s = checked cs effect s) (hpass : firstFailure cs = none → Passes s i)
    (heffect : effect s = stateAfter s i) (h : exec i s = .next t) : RefusedOrPasses i s t := by
  rw [hexec] at h
  obtain ⟨sub, -, rfl⟩ | ⟨hnone, rfl⟩ := checked_cases h
  · exact .inl ⟨sub, rfl⟩
  · exact .inr ⟨hpass hnone, heffect⟩

theorem takesData_of_pass {dir : Direction} {n : Nat} {c : GcmContext}
    (h : firstFailure [cryptSequenceCheck dir c, dataLengthCheck n] = none) :
    c.takesData dir ∧ n ≤ Config.cMaxBytes := by
  simp only [firstFailure_cons_eq_none, cryptSequence_eq_none_iff, dataLengthCheck_eq_none_iff] at h
  obtain ⟨htakes, hlen, -⟩ := h
  exact ⟨htakes, hlen⟩

theorem exec_cases {i : Instr} {s t : State} (h : exec i s = .next t) : RefusedOrPasses i s t := by
  cases i with
  | gfMul x y => exact refusedOrPasses_of_checked (exec_gfMul x y s) (fun _ => trivial) rfl h
  | ghInit st k => exact refusedOrPasses_of_checked (exec_ghInit st k s) (fun _ => trivial) rfl h
  | ghUpdate d => exact refusedOrPasses_of_checked (exec_ghUpdate d s) keyed_of_pass rfl h
  | ghFinal => exact refusedOrPasses_of_checked (exec_ghFinal s) keyed_of_pass rfl h
  | ghReset => exact refusedOrPasses_of_checked (exec_ghReset s) keyed_of_pass rfl h
  | ghOneshot st k a c =>
    refine refusedOrPasses_of_checked (exec_ghOneshot st k a c s) (fun hpass => ?_) rfl h
    simp only [firstFailure_cons_eq_none, aadLengthCheck_eq_none_iff, dataLengthCheck_eq_none_iff] at hpass
    obtain ⟨ha, hc, -⟩ := hpass
    exact ⟨ha, hc⟩
  | gcmInit st k iv =>
    refine refusedOrPasses_of_checked (exec_gcmInit st k iv s) (fun hpass => ?_) rfl h
    simp only [firstFailure_cons_eq_none, initSequence_eq_none_iff, keyLengthCheck_eq_none_iff,
      ivLengthCheck_eq_none_iff] at hpass
    obtain ⟨hidle, hk, ⟨hpos, hmax⟩, -⟩ := hpass
    exact ⟨hidle, hk, hpos, hmax⟩
  | gcmAad a =>
    refine refusedOrPasses_of_checked (exec_gcmAad a s) (fun hpass => ?_) rfl h
    simp only [firstFailure_cons_eq_none, aadSequence_eq_none_iff, aadLengthCheck_eq_none_iff] at hpass
    obtain ⟨hphase, ha, -⟩ := hpass
    exact ⟨hphase, ha⟩
  | gcmEnc d => exact refusedOrPasses_of_checked (exec_cryptInstr .encrypt d s) takesData_of_pass rfl h
  | gcmDec d => exact refusedOrPasses_of_checked (exec_cryptInstr .decrypt d s) takesData_of_pass rfl h
  | gcmTag =>
    refine refusedOrPasses_of_checked (exec_gcmTag s) (fun hpass => ?_) rfl h
    exact tagSequence_eq_none_iff.mp (firstFailure_cons_eq_none.mp hpass).1
  | gcmVerifyDec st k iv a c tag =>
    refine refusedOrPasses_of_checked (exec_gcmVerifyDec st k iv a c tag s) (fun hpass => ?_) rfl h
    simp only [firstFailure_cons_eq_none, verifyDecSequence_eq_none_iff, keyLengthCheck_eq_none_iff,
      ivLengthCheck_eq_none_iff, aadLengthCheck_eq_none_iff, dataLengthCheck_eq_none_iff,
      tagLengthCheck_eq_none_iff] at hpass
    obtain ⟨hidle, hk, ⟨hpos, hmax⟩, ha, hc, ht, -⟩ := hpass
    exact ⟨hidle, hk, hpos, hmax, ha, hc, ht⟩
  | gcmAbort => exact refusedOrPasses_of_checked (exec_gcmAbort s) (fun _ => trivial) rfl h

theorem answerOf_status (s : State) (i : Instr) : (answerOf s i).status ≠ .validationError := by
  cases i with
  | gcmVerifyDec => exact verifyDecEffect_status
  | _ => exact nofun

/-! ## The steps -/

theorem step_of_decode_ok {s : State} {cmd : Command} {rest : List HostEvent} {i : Instr}
    (h : s.pending = .command cmd :: rest) (hd : decode cmd = .ok i) : step s = exec i (s.setPending rest) := by
  rw [step_event h, handleEvent, runCommand, hd]

theorem step_of_reset {s : State} {rest : List HostEvent} (h : s.pending = .reset :: rest) :
    step s = .next (s.setPending rest).resetEvent := by
  rw [step_event h, handleEvent]

/-- Everything a step can do: stay idle, take the reset event, refuse a command that does not decode, or run one. -/
theorem step_cases {s t : State} (h : step s = .next t) :
    (s.pending = [] ∧ t = s) ∨
      (∃ rest, s.pending = .reset :: rest ∧ t = (s.setPending rest).resetEvent) ∨
      (∃ cmd rest sub, s.pending = .command cmd :: rest ∧ decode cmd = .error sub ∧
        t = (s.setPending rest).raiseValidation sub) ∨
      ∃ cmd rest i, s.pending = .command cmd :: rest ∧ decode cmd = .ok i ∧
        RefusedOrPasses i (s.setPending rest) t := by
  rcases hp : s.pending with _ | ⟨cmd | _, rest⟩
  · rw [step_idle hp] at h
    injection h with h
    exact .inl ⟨rfl, h.symm⟩
  case cons.reset =>
    rw [step_of_reset hp] at h
    injection h with h
    exact .inr (.inl ⟨rest, rfl, h.symm⟩)
  case cons.command =>
    cases hd : decode cmd with
    | error sub =>
      rw [step_of_decode_error hp hd] at h
      injection h with h
      exact .inr (.inr (.inl ⟨cmd, rest, sub, rfl, hd, h.symm⟩))
    | ok i =>
      rw [step_of_decode_ok hp hd] at h
      exact .inr (.inr (.inr ⟨cmd, rest, i, rfl, hd, exec_cases h⟩))

end Sys2Proof.Machine
end

section
/-! The counter (42_gcm.md R150, R168): a counter block is its upper 96 bits and a 32-bit field, and `inc32` adds 1 to the
field alone. -/

namespace Sys2Proof.Machine

@[simp] theorem upper_append (hi : BitVec 96) (lo : BitVec 32) : (hi ++ lo).extractLsb' 32 96 = hi := by
  rw [BitVec.extractLsb'_append_eq_of_le le_rfl, Nat.sub_self, BitVec.extractLsb'_eq_self]

@[simp] theorem field_append (hi : BitVec 96) (lo : BitVec 32) : (hi ++ lo).extractLsb' 0 32 = lo := by
  rw [BitVec.extractLsb'_append_eq_of_add_le le_rfl, BitVec.extractLsb'_eq_self]

theorem upper_append_field (b : Block) : b.extractLsb' 32 96 ++ b.extractLsb' 0 32 = b := by
  rw [BitVec.extractLsb'_append_extractLsb'_eq_extractLsb' (by decide : 32 = 0 + 32)]
  exact BitVec.extractLsb'_eq_self

@[simp] theorem upper_inc32 (b : Block) : (inc32 b).extractLsb' 32 96 = b.extractLsb' 32 96 := by
  rw [inc32, upper_append]

theorem inc32_iterate (n : Nat) (b : Block) :
    inc32^[n] b = b.extractLsb' 32 96 ++ (b.extractLsb' 0 32 + BitVec.ofNat 32 n) := by
  induction n with
  | zero => rw [Function.iterate_zero, id, BitVec.add_zero, upper_append_field]
  | succ n ih =>
    rw [Function.iterate_succ_apply', ih, inc32, upper_append, field_append, BitVec.add_assoc, BitVec.ofNat_add]

@[simp] theorem upper_inc32_iterate (n : Nat) (b : Block) :
    (inc32^[n] b).extractLsb' 32 96 = b.extractLsb' 32 96 := by
  rw [inc32_iterate, upper_append]

/-! ## The bytes of a counter block -/

theorem append_toBytes (hi : BitVec 96) (lo : BitVec 32) :
    Block.toBytes (hi ++ lo) = beBytes 12 hi.toNat ++ beBytes 4 lo.toNat := by
  have hval : (hi ++ lo).toNat = hi.toNat * 256 ^ 4 + lo.toNat := by
    rw [BitVec.toNat_append, ← Nat.shiftLeft_add_eq_or_of_lt lo.isLt, Nat.shiftLeft_eq,
      show 2 ^ 32 = 256 ^ 4 from rfl]
  have hlow := lo.isLt
  have hhigh : (hi ++ lo).toNat / 256 ^ 4 = hi.toNat := by omega
  have hrest : (hi ++ lo).toNat % 256 ^ 4 = lo.toNat := by omega
  rw [Block.toBytes, show 16 = 12 + 4 from rfl, beBytes_add, hhigh, ← beBytes_mod 4, hrest]

theorem toBytes_take_upper (b : Block) : b.toBytes.take 12 = beBytes 12 (b.extractLsb' 32 96).toNat := by
  rw [← upper_append_field b, append_toBytes, upper_append, List.take_left' (length_beBytes _ _)]

theorem toBytes_drop_upper (b : Block) : b.toBytes.drop 12 = beBytes 4 (b.extractLsb' 0 32).toNat := by
  rw [← upper_append_field b, append_toBytes, field_append, List.drop_left' (length_beBytes _ _)]

/-- Settles O42: the upper 96 bits are bytes 0 to 11 and the field is bytes 12 to 15. -/
theorem inc32CounterField : Obligations.Inc32CounterField := by
  unfold Obligations.Inc32CounterField
  intro b
  constructor
  · rw [toBytes_take_upper, upper_inc32, toBytes_take_upper]
  · rw [toBytes_drop_upper, toBytes_drop_upper, intBE_beBytes_of_lt (b.extractLsb' 0 32).isLt, inc32, field_append,
      BitVec.toNat_add]
    rfl

/-- Settles O43: the field after n steps is advanced by n modulo 2^32, and inc32(J0) is one step from J0. -/
theorem counterWrap : Obligations.CounterWrap := by
  unfold Obligations.CounterWrap
  have hwrap (b : Block) : inc32^[2 ^ 32] b = b := by
    rw [inc32_iterate, show BitVec.ofNat 32 (2 ^ 32) = 0#32 from rfl, BitVec.add_zero, upper_append_field]
  refine ⟨hwrap, fun p j0 hp => ?_⟩
  rw [firstCounterBlock, hp, ← Function.iterate_succ_apply]
  exact hwrap j0

end Sys2Proof.Machine
end

section
/-! Steps and commands in general (60_exceptions.md, 70_reset_and_hazards.md), read off from everything they can do. -/

namespace Sys2Proof.Machine

/-! ## Single steps -/

/-- Settles O10: the next event is the command, and the command decodes to `i`. -/
theorem stepRunsDecoded : Obligations.StepRunsDecoded := by
  unfold Obligations.StepRunsDecoded
  exact fun _ _ _ _ => step_of_decode_ok

/-- Settles O11: the decoder's sub-code is the answer. -/
theorem stepRefusesUndecoded : Obligations.StepRefusesUndecoded := by
  unfold Obligations.StepRefusesUndecoded
  exact fun _ _ _ _ => step_of_decode_error

/-- Settles O12: the idle step. -/
theorem idleHoldsState : Obligations.IdleHoldsState := by
  unfold Obligations.IdleHoldsState
  exact fun _ => step_idle

/-- Settles O13: the reset event writes the two reset contexts. -/
theorem resetEventValues : Obligations.ResetEventValues := by
  unfold Obligations.ResetEventValues
  exact fun _ _ => step_of_reset

/-- Settles O14: the reset state, its two contexts unfolded. -/
theorem resetStateValues : Obligations.ResetStateValues := by
  unfold Obligations.ResetStateValues
  rfl

/-- Settles O59: each code by its definition. -/
theorem numericCodes : Obligations.NumericCodes := by
  unfold Obligations.NumericCodes
  refine ⟨fun ph => ?_, rfl, rfl, rfl, rfl, rfl, rfl, rfl, rfl, rfl, rfl⟩
  cases ph <;> rfl

/-! ## Every command is answered -/

theorem exec_total (i : Instr) (s : State) : ∃ t, exec i s = .next t := by
  cases i <;> exact ⟨_, rfl⟩

theorem step_total (s : State) : ∃ t, step s = .next t := by
  rcases hp : s.pending with _ | ⟨cmd | _, rest⟩
  · exact ⟨s, step_idle hp⟩
  case cons.reset => exact ⟨_, step_of_reset hp⟩
  case cons.command =>
    cases hd : decode cmd with
    | error sub => exact ⟨_, step_of_decode_error hp hd⟩
    | ok i => exact step_of_decode_ok hp hd ▸ exec_total i _

/-- A step takes one event, and answers it once if it is a command. -/
theorem step_takes_event {s t : State} {e : HostEvent} {rest : List HostEvent} (hp : s.pending = e :: rest)
    (h : step s = .next t) :
    t.pending = rest ∧ t.responses.length = s.responses.length + if (e != .reset) = true then 1 else 0 := by
  obtain ⟨hp', -⟩ | ⟨rest', hp', rfl⟩ | ⟨cmd, rest', sub, hp', -, rfl⟩ | ⟨cmd, rest', i, hp', -, hrun⟩ :=
    step_cases h
  · simp [hp] at hp'
  · obtain ⟨rfl, rfl⟩ := List.cons.inj (hp.symm.trans hp')
    simp
  · obtain ⟨rfl, rfl⟩ := List.cons.inj (hp.symm.trans hp')
    simp
  · obtain ⟨rfl, rfl⟩ := List.cons.inj (hp.symm.trans hp')
    obtain ⟨sub, rfl⟩ | ⟨-, rfl⟩ := hrun <;> simp [stateAfter]

/-- Every event of a run is taken by a step of its own. -/
theorem advanceBy_takes_all (x : Run) :
    (x.advanceBy x.state.pending.length).state.pending = [] ∧
      (x.advanceBy x.state.pending.length).state.responses.length =
        x.state.responses.length + x.state.pending.countP (· != .reset) := by
  induction hp : x.state.pending generalizing x with
  | nil => exact ⟨hp, rfl⟩
  | cons e rest ih =>
    obtain ⟨t, ht⟩ := step_total x.state
    obtain ⟨htp, htr⟩ := step_takes_event hp ht
    obtain ⟨hdone, hcount⟩ := ih x.advance (by rw [advance_of_step ht, htp])
    refine ⟨hdone, ?_⟩
    rw [List.length_cons, advanceBy_succ, hcount, advance_of_step ht, htr, List.countP_cons,
      Nat.add_assoc, Nat.add_comm (ite _ _ _)]

/-- Settles O15: decoding and every command are total, and a run takes its events one by one. -/
theorem everyCommandAnswered : Obligations.EveryCommandAnswered := by
  unfold Obligations.EveryCommandAnswered
  refine ⟨step_total, exec_total, fun es => ?_⟩
  obtain ⟨hdone, hcount⟩ := advanceBy_takes_all (Run.launch es)
  rw [launch_state, setPending_pending] at hdone hcount
  exact ⟨hdone, by rw [← List.countP_eq_length_filter]; exact hcount.trans (Nat.zero_add _)⟩

/-- Settles O16: a refusal and an effect both add one response. -/
theorem oneResponsePerCommand : Obligations.OneResponsePerCommand := by
  unfold Obligations.OneResponsePerCommand
  intro i s t h
  obtain ⟨sub, rfl⟩ | ⟨-, rfl⟩ := exec_cases h
  · exact ⟨validationResponse sub, rfl, rfl⟩
  · exact ⟨answerOf s i, rfl, rfl⟩

/-! ## Refusals -/

theorem verifyDecEffect_sub {p : Platform} {st : Strategy} {k iv a c t : Bytes} :
    (verifyDecEffect p st k iv a c t).2.sub = none := by
  unfold verifyDecEffect
  dsimp only
  split <;> rfl

theorem answerOf_sub (s : State) (i : Instr) : (answerOf s i).sub = none := by
  cases i with
  | gcmVerifyDec => exact verifyDecEffect_sub
  | _ => rfl

theorem opcode_of_authenticationFailure {s : State} {i : Instr}
    (h : (answerOf s i).status = .authenticationFailure) : i.opcode = .gcmVerifyDec := by
  cases i with
  | gcmVerifyDec => rfl
  | _ => nomatch h

/-- Settles O17: a refusal writes nothing, and the response of an effect has neither the status nor a sub-code. -/
theorem validationErrorWritesNothing : Obligations.ValidationErrorWritesNothing := by
  unfold Obligations.ValidationErrorWritesNothing
  intro i s t r h hr
  obtain ⟨sub, rfl⟩ | ⟨-, rfl⟩ := exec_cases h
  · obtain rfl := eq_of_responses hr rfl
    simp
  · obtain rfl := eq_of_responses hr rfl
    exact ⟨fun hv => absurd hv (answerOf_status s i), fun _ => answerOf_sub s i, opcode_of_authenticationFailure⟩

/-! ## Instances beside one another -/

/-- Settles O20: only the position of the step is written, with what the step there gives. -/
theorem instancesIsolated : Obligations.InstancesIsolated := by
  unfold Obligations.InstancesIsolated
  intro k xs ys s hs h
  obtain ⟨t, ht⟩ := step_total s
  have hk : k < xs.length := (List.getElem?_eq_some_iff.mp hs).1
  simp only [Instances.step, hs, ht, Host.Outcome.next.injEq] at h
  subst h
  exact ⟨⟨t, ht, List.getElem?_set_self hk⟩, fun j hj => List.getElem?_set_ne hj.symm⟩

end Sys2Proof.Machine
end

section
/-! The invariants of the contexts (10_state.md R42 to R51): they hold after reset, each helper of a session keeps them, and
so does every step. -/

namespace Sys2Proof.Machine

/-! ## The GCM context by the helpers of a session -/

section
variable {p : Platform} {c : GcmContext} {dir : Direction}

theorem inv_reset : GcmContext.reset.Inv p where
  hashKey h := absurd rfl h
  counterPrefix h := absurd rfl h
  unused _ := rfl
  direction := iff_of_true rfl (.inl rfl)
  table := rfl
  aadBound := Nat.zero_le _
  dataBound := Nat.zero_le _

/-- FIRST_COUNTER leaves the upper bits of J0 (R152). -/
theorem upper_firstCounterBlock (p : Platform) (j0 : Block) :
    (firstCounterBlock p j0).extractLsb' 32 96 = j0.extractLsb' 32 96 := by
  unfold firstCounterBlock
  split
  · exact upper_inc32 j0
  · rfl

theorem inv_sessionInit (st : Strategy) (k iv : Bytes) : (sessionInit p st k iv).Inv p where
  hashKey _ := rfl
  counterPrefix _ := upper_firstCounterBlock p _
  unused := nofun
  direction := iff_of_true rfl (.inr (.inl rfl))
  table := by cases st <;> rfl
  aadBound := Nat.zero_le _
  dataBound := Nat.zero_le _

theorem inSession_of_takesData (h : c.takesData dir) : c.inSession := by
  obtain h | h | ⟨h, -⟩ := h
  · exact .inl h
  · exact .inr (.inl h)
  · exact .inr (.inr h)

theorem phase_ne_uninitialized (h : c.inSession) : c.phase ≠ .uninitialized := by
  rcases h with h | h | h <;> simp [h]

theorem phase_ne_finalized (h : c.inSession) : c.phase ≠ .finalized := by
  rcases h with h | h | h <;> simp [h]

/-- A count within the bounds of R15 is held by its field. -/
theorem toNat_ofNat_of_le_bound {n : Nat} (h : n ≤ 2 ^ 61 - 1) : (BitVec.ofNat 64 n).toNat = n := by
  rw [BitVec.toNat_ofNat]
  omega

theorem inv_sessionAad {a : Bytes} (h : c.Inv p) (hphase : c.phase = .initialized)
    (ha : a.length ≤ Config.aadMaxBytes) : (sessionAad a c).Inv p := by
  have hopen := phase_ne_uninitialized (.inl hphase)
  exact {
    hashKey := fun _ => h.hashKey hopen
    counterPrefix := fun _ => h.counterPrefix hopen
    unused := nofun
    direction := iff_of_true (h.direction.mpr (.inr (.inl hphase))) (.inr (.inr rfl))
    table := by simpa [hphase] using h.table
    aadBound := (toNat_ofNat_of_le_bound ha).trans_le ha
    dataBound := h.dataBound }

theorem toNat_sessionCrypt_cLen {data : Bytes} (hlen : c.cLen.toNat + data.length ≤ Config.cMaxBytes) :
    (sessionCrypt p dir data c).1.cLen.toNat = c.cLen.toNat + data.length := toNat_ofNat_of_le_bound hlen

theorem inv_sessionCrypt {data : Bytes} (h : c.Inv p) (hopen : c.phase ≠ .uninitialized)
    (hlen : c.cLen.toNat + data.length ≤ Config.cMaxBytes) : (sessionCrypt p dir data c).1.Inv p := by
  have hbound := (toNat_sessionCrypt_cLen (p := p) (dir := dir) hlen).trans_le hlen
  rw [sessionCrypt_context] at hbound ⊢
  exact {
    hashKey := fun _ => h.hashKey hopen
    counterPrefix := fun _ => (upper_inc32_iterate _ _).trans (h.counterPrefix hopen)
    unused := nofun
    direction := by simp
    table := by simpa [hopen] using h.table
    aadBound := h.aadBound
    dataBound := hbound }

@[simp] theorem sessionTag_dir : (sessionTag p c).1.dir = c.dir := rfl
@[simp] theorem sessionTag_strat : (sessionTag p c).1.strat = c.strat := rfl
@[simp] theorem sessionTag_tbl : (sessionTag p c).1.tbl = c.tbl := rfl
@[simp] theorem sessionTag_aadLen : (sessionTag p c).1.aadLen = c.aadLen := rfl
@[simp] theorem sessionTag_cLen : (sessionTag p c).1.cLen = c.cLen := rfl

theorem inv_sessionTag (h : c.Inv p) (hphase : c.phase = .cipherPhase) : (sessionTag p c).1.Inv p := by
  have hopen := phase_ne_uninitialized (.inr (.inr hphase))
  exact {
    hashKey := fun _ => h.hashKey hopen
    counterPrefix := fun _ => h.counterPrefix hopen
    unused := nofun
    direction := by simpa [hphase] using h.direction
    table := by simpa [hphase] using h.table
    aadBound := h.aadBound
    dataBound := h.dataBound }

theorem inv_verifyDecEffect {st : Strategy} {k iv a d t : Bytes} (ha : a.length ≤ Config.aadMaxBytes)
    (hd : d.length ≤ Config.cMaxBytes) : (verifyDecEffect p st k iv a d t).1.Inv p := by
  have haad : (sessionAad a (sessionInit p st k iv)).Inv p := inv_sessionAad (inv_sessionInit st k iv) rfl ha
  exact inv_sessionTag (inv_sessionCrypt haad nofun ((Nat.zero_add _).trans_le hd)) rfl

end

/-! ## Both contexts -/

theorem ghInv_reset : GhashContext.reset.Inv := ⟨fun _ => rfl, rfl⟩

/-- A keyed context and the same with another accumulator keep the table alike (R49). -/
theorem ghInv_setY {g : GhashContext} (h : g.Inv) (hkeyed : g.valid = true) (y : Block) :
    GhashContext.Inv { g with y := y } :=
  ⟨fun hv => absurd hv (by simp [hkeyed]), h.table⟩

theorem ghInv_keyed (st : Strategy) (h : Block) :
    GhashContext.Inv { valid := true, strat := st, h := h, y := 0, tbl := tableFor st h } :=
  ⟨nofun, by cases st <;> rfl⟩

theorem Passes.inv {s : State} {i : Instr} (h : Passes s i) (hinv : s.Inv) : (stateAfter s i).Inv := by
  obtain ⟨hc, hg⟩ := hinv
  cases i with
  | gfMul | ghFinal | ghOneshot => exact ⟨hc, hg⟩
  | ghInit st k => exact ⟨hc, ghInv_keyed st k⟩
  | ghUpdate | ghReset => exact ⟨hc, ghInv_setY hg h _⟩
  | gcmInit st k iv => exact ⟨inv_sessionInit st k iv, hg⟩
  | gcmAad a =>
    obtain ⟨hphase, ha⟩ := h
    exact ⟨inv_sessionAad hc hphase ha, hg⟩
  | gcmEnc | gcmDec =>
    obtain ⟨htakes, hlen⟩ := h
    exact ⟨inv_sessionCrypt hc (phase_ne_uninitialized (inSession_of_takesData htakes)) hlen, hg⟩
  | gcmTag => exact ⟨inv_sessionTag hc h, hg⟩
  | gcmVerifyDec st k iv a d t =>
    obtain ⟨-, -, -, -, ha, hd, -⟩ := h
    exact ⟨inv_verifyDecEffect (t := t) ha hd, hg⟩
  | gcmAbort => exact ⟨inv_reset, hg⟩

/-- Settles O23: the reset event restores the reset values, a refusal writes nothing, and an effect keeps both
invariants. -/
theorem stepKeepsInvariant : Obligations.StepKeepsInvariant := by
  unfold Obligations.StepKeepsInvariant
  intro s t hinv h
  obtain ⟨-, rfl⟩ | ⟨rest, -, rfl⟩ | ⟨cmd, rest, sub, -, -, rfl⟩ | ⟨cmd, rest, i, -, -, hrun⟩ := step_cases h
  · exact hinv
  · exact ⟨inv_reset, ghInv_reset⟩
  · exact hinv
  · obtain ⟨sub, rfl⟩ | ⟨hpass, rfl⟩ := hrun
    · exact hinv
    · exact hpass.inv hinv

/-- Settles O22: the reset values themselves. -/
theorem resetMeetsInvariant : Obligations.ResetMeetsInvariant := by
  unfold Obligations.ResetMeetsInvariant
  exact ⟨⟨inv_reset, ghInv_reset⟩, rfl, rfl, rfl, rfl⟩

/-! ## What is constant in a session (R37, R51 (b), (c)) -/

/-- The fields that only the start and the end of a session write. -/
def SameSession (c c' : GcmContext) : Prop :=
  c'.key = c.key ∧ c'.h = c.h ∧ c'.j0 = c.j0 ∧ c'.strat = c.strat ∧ c'.tbl = c.tbl ∧
    c'.ctr.toBytes.take 12 = c.ctr.toBytes.take 12

theorem sameSession_sessionCrypt (p : Platform) (dir : Direction) (data : Bytes) (c : GcmContext) :
    SameSession c (sessionCrypt p dir data c).1 := by
  rw [sessionCrypt_context]
  refine ⟨rfl, rfl, rfl, rfl, rfl, ?_⟩
  rw [toBytes_take_upper, toBytes_take_upper, upper_inc32_iterate]

theorem Passes.sameSession {s : State} {i : Instr} (h : Passes s i) (hopen : s.c.inSession)
    (hnot : i.opcode ≠ .gcmAbort) : SameSession s.c (contextAfter s i) := by
  have hbusy : ¬ (s.c.phase = .uninitialized ∨ s.c.phase = .finalized) :=
    not_or.mpr ⟨phase_ne_uninitialized hopen, phase_ne_finalized hopen⟩
  cases i with
  | gcmInit st k iv => exact absurd h.1 hbusy
  | gcmVerifyDec st k iv a d t => exact absurd h.1 hbusy
  | gcmAbort => exact absurd rfl hnot
  | gcmEnc | gcmDec => exact sameSession_sessionCrypt Config.platform _ _ s.c
  | gfMul | ghInit | ghUpdate | ghFinal | ghReset | ghOneshot | gcmAad | gcmTag =>
    exact ⟨rfl, rfl, rfl, rfl, rfl, rfl⟩

/-- Settles O25: a command that starts a session is refused in one, and the others write none of its constants. -/
theorem sessionConstants : Obligations.SessionConstants := by
  unfold Obligations.SessionConstants
  intro i s t h hopen hnot
  obtain ⟨sub, rfl⟩ | ⟨hpass, rfl⟩ := exec_cases h
  · exact ⟨rfl, rfl, rfl, rfl, rfl, rfl⟩
  · exact hpass.sameSession hopen hnot

end Sys2Proof.Machine
end

section
/-! What C.Y has absorbed (10_state.md R51 (d)), and the record of a run (70_reset_and_hazards.md R216, R235): the effect of
every command keeps both, with the texts and the record that the command makes. -/

namespace Sys2Proof.Machine

/-! ## The hash of the texts -/

@[simp] theorem pad16_toBytes (b : Block) : pad16 b.toBytes = b := by simp [pad16]

/-- A whole block absorbed is added and multiplied (R120). -/
theorem ghashUpdate_toBytes (s : Strategy) (y h : Block) (t : Table) (b : Block) :
    ghashUpdate s y h t b.toBytes = mulH s (y ^^^ b) h t := by
  rw [ghashUpdate, blocks_of_length (length_toBytes b), List.foldl_cons, List.foldl_nil, absorb, pad16_toBytes]

theorem absorbedData_append (c : GcmContext) (a : Bytes) (chunks : List Bytes) (d : Bytes) :
    absorbedData c ⟨a, chunks ++ [d]⟩ = ghashUpdate c.strat (absorbedData c ⟨a, chunks⟩) c.h c.tbl d := by
  rw [absorbedData, List.foldl_append, List.foldl_cons, List.foldl_nil, absorbedData]

section
variable {p : Platform} {c : GcmContext} {dir : Direction} {x : SessionText}

/-- While a session is open C.Y is the hash of the AAD and the chunks, which are none before GCM_AAD and before data. -/
theorem y_eq_absorbedData (h : c.Absorbed x) (hopen : c.inSession) : c.y = absorbedData c x := by
  obtain ⟨-, -, hy⟩ := h
  obtain hphase | hphase | hphase := hopen <;> rw [hphase] at hy
  · obtain ⟨rfl, hy⟩ := hy
    exact hy
  · exact hy.2
  · exact hy

theorem absorbed_reset : GcmContext.reset.Absorbed .empty := ⟨rfl, rfl, rfl, rfl⟩

theorem absorbed_sessionInit (st : Strategy) (k iv : Bytes) : (sessionInit p st k iv).Absorbed .empty :=
  ⟨rfl, rfl, rfl, rfl⟩

theorem absorbed_sessionAad {a : Bytes} (h : c.Absorbed x) (hphase : c.phase = .initialized)
    (ha : a.length ≤ Config.aadMaxBytes) : (sessionAad a c).Absorbed { x with aad := a } := by
  obtain ⟨-, hchunks, hy⟩ := h
  rw [hphase] at hy
  obtain ⟨rfl, hy⟩ := hy
  refine ⟨(toNat_ofNat_of_le_bound ha).symm, hchunks, rfl, ?_⟩
  rw [sessionAad_y, hy]
  rfl

/-- The ciphertext is as long as the data, in both directions. -/
theorem length_hashedText_sessionCrypt (p : Platform) (dir : Direction) (data : Bytes) (c : GcmContext) :
    (hashedText dir data (sessionCrypt p dir data c).2).length = data.length := by
  cases dir
  · exact length_sessionCrypt p .encrypt data c
  · rfl

theorem absorbed_sessionCrypt {data : Bytes} (h : c.Absorbed x) (hopen : c.inSession)
    (hlen : c.cLen.toNat + data.length ≤ Config.cMaxBytes) :
    (sessionCrypt p dir data c).1.Absorbed
      { x with chunks := x.chunks ++ [hashedText dir data (sessionCrypt p dir data c).2] } := by
  obtain ⟨haad, hchunks, -⟩ := id h
  have hcount := toNat_sessionCrypt_cLen (p := p) (dir := dir) hlen
  rw [sessionCrypt_context] at hcount ⊢
  refine ⟨haad, ?_, ?_⟩
  · rw [hcount, ← hchunks, List.flatten_append, List.length_append, List.flatten_singleton,
      length_hashedText_sessionCrypt]
  · change ghashUpdate _ _ _ _ _ = absorbedData c _
    rw [absorbedData_append, y_eq_absorbedData h hopen]

theorem absorbed_sessionTag (h : c.Absorbed x) (hphase : c.phase = .cipherPhase) : (sessionTag p c).1.Absorbed x := by
  obtain ⟨haad, hchunks, -⟩ := id h
  have hy := y_eq_absorbedData h (.inr (.inr hphase))
  refine ⟨haad, hchunks, ?_⟩
  change (sessionTag p c).1.y = ghashUpdate c.strat (absorbedData c x) c.h c.tbl _
  rw [ghashUpdate_toBytes, sessionTag_y, hy]
  rfl

theorem absorbed_verifyDecEffect {st : Strategy} {k iv a d t : Bytes} (ha : a.length ≤ Config.aadMaxBytes)
    (hd : d.length ≤ Config.cMaxBytes) : (verifyDecEffect p st k iv a d t).1.Absorbed ⟨a, [d]⟩ := by
  have haad := absorbed_sessionAad (absorbed_sessionInit (p := p) st k iv) rfl ha
  have hdec := absorbed_sessionCrypt (p := p) (dir := .decrypt) haad (.inr (.inl rfl)) ((Nat.zero_add _).trans_le hd)
  exact absorbed_sessionTag (p := p) hdec rfl

end

/-- R51 (d) for every command that passes its checks. -/
theorem Passes.absorbed {s : State} {i : Instr} {x : SessionText} (h : Passes s i) (hx : s.c.Absorbed x) :
    (contextAfter s i).Absorbed (textAfter i (answerOf s i) x) := by
  unfold textAfter
  rw [if_neg (answerOf_status s i)]
  cases i with
  | gfMul | ghInit | ghUpdate | ghFinal | ghReset | ghOneshot => exact hx
  | gcmInit st k iv => exact absorbed_sessionInit st k iv
  | gcmAad a =>
    obtain ⟨hphase, ha⟩ := h
    exact absorbed_sessionAad hx hphase ha
  | gcmEnc d =>
    obtain ⟨htakes, hlen⟩ := h
    exact absorbed_sessionCrypt (dir := .encrypt) hx (inSession_of_takesData htakes) hlen
  | gcmDec d =>
    obtain ⟨htakes, hlen⟩ := h
    exact absorbed_sessionCrypt (p := Config.platform) (dir := .decrypt) hx (inSession_of_takesData htakes) hlen
  | gcmTag => exact absorbed_sessionTag hx h
  | gcmVerifyDec st k iv a d t =>
    obtain ⟨-, -, -, -, ha, hd, -⟩ := h
    exact absorbed_verifyDecEffect ha hd
  | gcmAbort => exact absorbed_reset

/-- Settles O24: only a command that passes its checks touches the texts, and its helper of a session absorbs what
`textAfter` names. -/
theorem stepKeepsAbsorbed : Obligations.StepKeepsAbsorbed := by
  unfold Obligations.StepKeepsAbsorbed
  intro s t x hx h
  obtain ⟨hp, rfl⟩ | ⟨rest, hp, rfl⟩ | ⟨cmd, rest, sub, hp, hd, rfl⟩ | ⟨cmd, rest, i, hp, hd, hrun⟩ := step_cases h
  · rw [hp]
    exact hx
  · rw [hp]
    exact absorbed_reset
  · simp only [hp, hd]
    exact hx
  · simp only [hp, hd]
    obtain ⟨sub, rfl⟩ | ⟨hpass, rfl⟩ := hrun
    · exact ⟨validationResponse sub, rfl, hx⟩
    · have habsorbed := hpass.absorbed hx
      refine ⟨answerOf (s.setPending rest) i, rfl, ?_⟩
      cases i <;> exact habsorbed

/-! ## The record of a run -/

/-- C has the key, the hash key, the table and the counter block that a key and an IV within their bounds give (R154). -/
def StartedFrom (c : GcmContext) (k iv : Bytes) : Prop :=
  k.length = Config.keyBytes ∧ 0 < iv.length ∧ iv.length ≤ Config.ivMaxBytes ∧ c.key = Key.ofBytes k ∧
    c.h = Config.platform.cipher c.key 0 ∧ c.tbl = tableFor c.strat c.h ∧ c.j0 = deriveJ0 c.strat c.h c.tbl iv

/-- The newest record is that of the session in C. -/
def NewestAgrees (c : GcmContext) (log : List SessionRecord) : Prop :=
  ∃ (r : SessionRecord) (older : List SessionRecord), log = r :: older ∧
    StartedFrom c r.key r.iv ∧ c.Absorbed r.text ∧ (r.tagged = true ↔ c.phase = .finalized)

theorem recorded_iff {x : Run} :
    x.Recorded ↔ (x.state.c.phase ≠ .uninitialized → NewestAgrees x.state.c x.sessions) := by
  simp only [Run.Recorded, NewestAgrees, StartedFrom, and_assoc]

theorem StartedFrom.of_sameSession {c c' : GcmContext} {k iv : Bytes} (h : StartedFrom c k iv)
    (hsame : SameSession c c') : StartedFrom c' k iv := by
  obtain ⟨hkey, hh, hj0, hstrat, htbl, -⟩ := hsame
  rw [StartedFrom, hkey, hh, hj0, hstrat, htbl]
  exact h

theorem startedFrom_sessionInit (st : Strategy) {k iv : Bytes} (hk : k.length = Config.keyBytes)
    (hpos : 0 < iv.length) (hmax : iv.length ≤ Config.ivMaxBytes) :
    StartedFrom (sessionInit Config.platform st k iv) k iv := ⟨hk, hpos, hmax, rfl, rfl, rfl, rfl⟩

theorem sameSession_verifyDecEffect (p : Platform) (st : Strategy) (k iv a d t : Bytes) :
    SameSession (sessionInit p st k iv) (verifyDecEffect p st k iv a d t).1 :=
  sameSession_sessionCrypt p .decrypt d (sessionAad a (sessionInit p st k iv))

/-- A command that goes on with an open session changes its record alone, and in it the texts or the mark of the tag. -/
theorem newestAgrees_modifyHead {c c' : GcmContext} {log : List SessionRecord} {f : SessionRecord → SessionRecord}
    (h : NewestAgrees c log) (hopen : c.inSession) (hsame : SameSession c c')
    (hstart : ∀ r, (f r).key = r.key ∧ (f r).iv = r.iv) (htext : ∀ r, c.Absorbed r.text → c'.Absorbed (f r).text)
    (htagged : ∀ r, r.tagged = false → ((f r).tagged = true ↔ c'.phase = .finalized)) :
    NewestAgrees c' (log.modifyHead f) := by
  obtain ⟨r, older, rfl, hstarted, habsorbed, hmark⟩ := h
  refine ⟨f r, older, rfl, ?_, htext r habsorbed, htagged r (by simpa [phase_ne_finalized hopen] using hmark)⟩
  rw [(hstart r).1, (hstart r).2]
  exact hstarted.of_sameSession hsame

/-- What is recorded of a command that passes its checks agrees with the context it leaves. -/
theorem Passes.newestAgrees {s : State} {i : Instr} {log : List SessionRecord} (h : Passes s i)
    (hlog : s.c.phase ≠ .uninitialized → NewestAgrees s.c log) (hc : (contextAfter s i).phase ≠ .uninitialized) :
    NewestAgrees (contextAfter s i) (recordCommand i (answerOf s i) log) := by
  have htext (r : SessionRecord) (hx : s.c.Absorbed r.text) := h.absorbed hx
  have hnewest (hopen : s.c.inSession) : NewestAgrees s.c log := hlog (phase_ne_uninitialized hopen)
  unfold recordCommand
  rw [if_neg (answerOf_status s i)]
  cases i with
  | gfMul | ghInit | ghUpdate | ghFinal | ghReset | ghOneshot => exact hlog hc
  | gcmInit st k iv =>
    obtain ⟨-, hk, hpos, hmax⟩ := h
    exact ⟨_, log, rfl, startedFrom_sessionInit st hk hpos hmax, absorbed_sessionInit st k iv, by simp [contextAfter]⟩
  | gcmAad a =>
    have hopen : s.c.inSession := .inl h.1
    exact newestAgrees_modifyHead (hnewest hopen) hopen ⟨rfl, rfl, rfl, rfl, rfl, rfl⟩ (fun _ => ⟨rfl, rfl⟩) htext
      (by simp [contextAfter])
  | gcmEnc d | gcmDec d =>
    have hopen := inSession_of_takesData h.1
    exact newestAgrees_modifyHead (hnewest hopen) hopen (sameSession_sessionCrypt Config.platform _ d s.c)
      (fun _ => ⟨rfl, rfl⟩) htext (fun _ hr => by simp [hr, contextAfter, sessionCrypt])
  | gcmTag =>
    have hopen : s.c.inSession := .inr (.inr h)
    exact newestAgrees_modifyHead (hnewest hopen) hopen ⟨rfl, rfl, rfl, rfl, rfl, rfl⟩ (fun _ => ⟨rfl, rfl⟩) htext
      (by simp [contextAfter])
  | gcmVerifyDec st k iv a d t =>
    obtain ⟨-, hk, hpos, hmax, ha, hd, -⟩ := h
    exact ⟨_, log, rfl, (startedFrom_sessionInit st hk hpos hmax).of_sameSession
      (sameSession_verifyDecEffect Config.platform st k iv a d t), absorbed_verifyDecEffect ha hd, iff_of_true rfl rfl⟩
  | gcmAbort => exact absurd rfl hc

/-- Settles O60: at the launch no session has been started, and only a command that passes its checks changes the
record. -/
theorem runRecordsSessions : Obligations.RunRecordsSessions := by
  unfold Obligations.RunRecordsSessions
  refine ⟨fun es h => absurd rfl h, fun x hx => ?_⟩
  rw [recorded_iff] at hx ⊢
  obtain ⟨t, ht⟩ := step_total x.state
  rw [advance_of_step ht]
  obtain ⟨hp, rfl⟩ | ⟨rest, hp, rfl⟩ | ⟨cmd, rest, sub, hp, hd, rfl⟩ | ⟨cmd, rest, i, hp, hd, hrun⟩ := step_cases ht
  · rw [recordStep_idle hp]
    exact hx
  · exact fun h => absurd rfl h
  · rw [recordStep_undecoded hp hd]
    exact hx
  · obtain ⟨sub, rfl⟩ | ⟨hpass, rfl⟩ := hrun
    · rw [recordStep_command hp hd rfl, recordCommand_refused rfl]
      exact hx
    · rw [recordStep_command (r := answerOf (x.state.setPending rest) i) hp hd rfl]
      exact hpass.newestAgrees hx

end Sys2Proof.Machine
end

section
/-! The field (40_gf128.md R110 to R113): a block is the remainder of a polynomial modulo P, and `gfmul` multiplies in the
ring of remainders, so it has the laws of that ring. -/

namespace Sys2Proof.Machine

open Polynomial

/-! ## Blocks as polynomials -/

/-- The polynomial of a block, bit i being the coefficient of x^i (R110). -/
noncomputable def blockPoly (b : Block) : (ZMod 2)[X] :=
  ∑ i ∈ Finset.range 128, if blockBit b i = true then X ^ i else 0

/-- P(x) (R110). Irreducible, so that no comparison of types computes the 128th power. -/
@[irreducible] noncomputable def fieldPoly : (ZMod 2)[X] := X ^ 128 + X ^ 7 + X ^ 2 + X + 1

theorem coeff_blockPoly (b : Block) {n : Nat} (hn : n < 128) :
    (blockPoly b).coeff n = if blockBit b n = true then 1 else 0 := by
  have hterm (i : Nat) : (if blockBit b i = true then (X ^ i : (ZMod 2)[X]) else 0).coeff n =
      if n = i then (if blockBit b i = true then 1 else 0) else 0 := by
    by_cases hbit : blockBit b i = true <;> simp [hbit, coeff_X_pow]
  rw [blockPoly, finsetSum_coeff, Finset.sum_congr rfl fun i _ => hterm i, Finset.sum_ite_eq,
    if_pos (Finset.mem_range.mpr hn)]

theorem blockPoly_injective : Function.Injective blockPoly := by
  intro a b h
  apply BitVec.eq_of_getMsbD_eq
  intro i hi
  have hcoeff : (if blockBit a i = true then (1 : ZMod 2) else 0) = if blockBit b i = true then 1 else 0 := by
    rw [← coeff_blockPoly a hi, ← coeff_blockPoly b hi, h]
  change blockBit a i = blockBit b i
  cases ha : blockBit a i <;> cases hb : blockBit b i <;> simp [ha, hb] at hcoeff ⊢

theorem blockPoly_mem_degreeLT (b : Block) : blockPoly b ∈ degreeLT (ZMod 2) 128 := by
  refine Submodule.sum_mem _ fun i hi => ?_
  by_cases hbit : blockBit b i = true
  · rw [if_pos hbit, mem_degreeLT, degree_X_pow]
    exact_mod_cast Finset.mem_range.mp hi
  · rw [if_neg hbit]
    exact Submodule.zero_mem _

theorem blockPoly_xor (a b : Block) : blockPoly (a ^^^ b) = blockPoly a + blockPoly b := by
  rw [blockPoly, blockPoly, blockPoly, ← Finset.sum_add_distrib]
  refine Finset.sum_congr rfl fun i hi => ?_
  have hbit : blockBit (a ^^^ b) i = (blockBit a i ^^ blockBit b i) := BitVec.getMsbD_xor
  rw [hbit]
  cases blockBit a i <;> cases blockBit b i <;> simp [CharTwo.add_self_eq_zero]

/-- A block whose 1-bits are known. -/
theorem blockPoly_of_bits {b : Block} {ones : Finset Nat} (hones : ones ⊆ Finset.range 128)
    (h : ∀ i < 128, blockBit b i = decide (i ∈ ones)) : blockPoly b = ∑ i ∈ ones, X ^ i := by
  have hterm : ∀ i ∈ Finset.range 128, (if blockBit b i = true then (X ^ i : (ZMod 2)[X]) else 0) =
      if i ∈ ones then X ^ i else 0 := by
    intro i hi
    simp [h i (Finset.mem_range.mp hi)]
  rw [blockPoly, Finset.sum_congr rfl hterm, Finset.sum_ite_mem, Finset.inter_eq_right.mpr hones]

theorem blockPoly_zero : blockPoly 0 = 0 :=
  blockPoly_of_bits (ones := ∅) (Finset.empty_subset _) fun i _ => by simp [blockBit]

theorem blockPoly_fieldOne : blockPoly fieldOne = 1 := by
  rw [blockPoly_of_bits (ones := {0}) (by decide) (by decide), Finset.sum_singleton, pow_zero]

theorem blockPoly_reductionR : blockPoly reductionR = X ^ 7 + X ^ 2 + X + 1 := by
  rw [blockPoly_of_bits (ones := {7, 2, 1, 0}) (by decide) (by decide)]
  simp [add_assoc]

/-- The shift multiplies by x, except that x^128 is dropped. -/
theorem blockPoly_shift (v : Block) :
    blockPoly (v >>> 1) + (if blockBit v 127 = true then X ^ 128 else 0) = X * blockPoly v := by
  have hfirst : blockBit (v >>> 1) 0 = false := by simp [blockBit]
  have hnext (i : Nat) (hi : i < 127) : blockBit (v >>> 1) (i + 1) = blockBit v i := by
    simp [blockBit, BitVec.getMsbD_ushiftRight]
    omega
  have hterm (i : Nat) : X * (if blockBit v i = true then (X ^ i : (ZMod 2)[X]) else 0) =
      if blockBit v i = true then X ^ (i + 1) else 0 := by
    rw [mul_ite, mul_zero, pow_succ']
  have hshifted : blockPoly (v >>> 1) = ∑ i ∈ Finset.range 127, if blockBit v i = true then X ^ (i + 1) else 0 := by
    rw [blockPoly, Finset.sum_range_succ', hfirst, if_neg Bool.false_ne_true, add_zero]
    exact Finset.sum_congr rfl fun i hi => by rw [hnext i (Finset.mem_range.mp hi)]
  rw [hshifted, blockPoly, Finset.mul_sum, Finset.sum_congr rfl fun i _ => hterm i, Finset.sum_range_succ _ 127]

/-! ## Remainders modulo P -/

/-- The remainder of the polynomial of a block. -/
noncomputable def residue (b : Block) : AdjoinRoot fieldPoly := AdjoinRoot.mk fieldPoly (blockPoly b)

theorem fieldPoly_eq : fieldPoly = X ^ 128 + (X ^ 7 + X ^ 2 + X + 1) := by
  unfold fieldPoly
  ring

theorem degree_fieldPoly : fieldPoly.degree = (128 : ℕ) := by
  have hlow : (X ^ 7 + X ^ 2 + X + 1 : (ZMod 2)[X]).degree < (128 : ℕ) := by
    refine lt_of_le_of_lt (b := (7 : WithBot ℕ)) ?_ (by decide)
    compute_degree
  rw [fieldPoly_eq, add_comm, degree_add_eq_right_of_degree_lt (by rwa [degree_X_pow]), degree_X_pow]

theorem residue_injective : Function.Injective residue := by
  intro a b h
  rw [residue, residue, AdjoinRoot.mk_eq_mk] at h
  have hlt := mem_degreeLT.mp (Submodule.sub_mem _ (blockPoly_mem_degreeLT a) (blockPoly_mem_degreeLT b))
  rw [← degree_fieldPoly] at hlt
  have hzero : blockPoly a - blockPoly b = 0 := eq_zero_of_dvd_of_degree_lt h hlt
  rw [sub_eq_zero] at hzero
  exact blockPoly_injective hzero

theorem residue_xor (a b : Block) : residue (a ^^^ b) = residue a + residue b := by
  rw [residue, blockPoly_xor, map_add, residue, residue]

theorem residue_fieldOne : residue fieldOne = 1 := by rw [residue, blockPoly_fieldOne, map_one]

/-- One shift of V multiplies by x: R is what x^128 leaves modulo P. -/
theorem residue_shiftReduce (v : Block) :
    residue (shiftReduce v) = AdjoinRoot.root fieldPoly * residue v := by
  have hroot : AdjoinRoot.root fieldPoly * residue v = AdjoinRoot.mk fieldPoly (X * blockPoly v) := by
    rw [map_mul, AdjoinRoot.mk_X, residue]
  rw [hroot, ← blockPoly_shift, shiftReduce, residue]
  by_cases hbit : blockBit v 127 = true
  · have hwrap : AdjoinRoot.mk fieldPoly (X ^ 7 + X ^ 2 + X + 1) = AdjoinRoot.mk fieldPoly (X ^ 128) := by
      refine (AdjoinRoot.mk_eq_mk.mpr ?_).symm
      rw [CharTwo.sub_eq_add, ← fieldPoly_eq]
    rw [if_pos hbit, if_pos hbit, blockPoly_xor, map_add, map_add, blockPoly_reductionR, hwrap]
  · rw [if_neg hbit, if_neg hbit, add_zero]

/-- After n rounds, V is y times x^n, and Z is the sum of those V that a 1-bit of the first operand has selected. -/
theorem residue_foldl_gfmulRound (x y : Block) (n : Nat) :
    residue ((List.range n).foldl (gfmulRound x) (0, y)).1 =
        (∑ i ∈ Finset.range n, if blockBit x i = true then AdjoinRoot.root fieldPoly ^ i else 0) * residue y ∧
      residue ((List.range n).foldl (gfmulRound x) (0, y)).2 = AdjoinRoot.root fieldPoly ^ n * residue y := by
  induction n with
  | zero =>
    have hzero : residue 0 = 0 := by rw [residue, blockPoly_zero, map_zero]
    exact ⟨by rw [Finset.range_zero, Finset.sum_empty, zero_mul]; exact hzero, by rw [pow_zero, one_mul]; rfl⟩
  | succ n ih =>
    obtain ⟨hz, hv⟩ := ih
    rw [List.range_succ, List.foldl_append, List.foldl_cons, List.foldl_nil, Finset.sum_range_succ, add_mul, ← hz]
    constructor
    · by_cases hbit : blockBit x n = true
      · rw [gfmulRound, if_pos hbit, if_pos hbit, residue_xor, hv]
      · rw [gfmulRound, if_neg hbit, if_neg hbit, zero_mul, add_zero]
    · rw [gfmulRound, residue_shiftReduce, hv, pow_succ', mul_assoc]

theorem residue_gfmul (x y : Block) : residue (gfmul x y) = residue x * residue y := by
  have hx : residue x = ∑ i ∈ Finset.range 128, if blockBit x i = true then AdjoinRoot.root fieldPoly ^ i else 0 := by
    simp only [residue, blockPoly, map_sum, apply_ite (AdjoinRoot.mk fieldPoly), map_pow, AdjoinRoot.mk_X, map_zero]
  rw [gfmul, (residue_foldl_gfmulRound x y 128).1, hx]

/-- Settles O27: a common remainder modulo P is divisibility of the difference by P. -/
theorem gfmulIsPolynomialProduct : Obligations.GfmulIsPolynomialProduct := by
  unfold Obligations.GfmulIsPolynomialProduct
  intro poly x y
  have hdvd : fieldPoly ∣ blockPoly (gfmul x y) - blockPoly x * blockPoly y := by
    rw [← AdjoinRoot.mk_eq_mk, map_mul]
    exact residue_gfmul x y
  unfold fieldPoly at hdvd
  exact hdvd

theorem gfmul_comm (x y : Block) : gfmul x y = gfmul y x :=
  residue_injective (by rw [residue_gfmul, residue_gfmul, mul_comm])

theorem gfmul_assoc (x y w : Block) : gfmul (gfmul x y) w = gfmul x (gfmul y w) :=
  residue_injective (by simp only [residue_gfmul, mul_assoc])

theorem fieldOne_gfmul (y : Block) : gfmul fieldOne y = y :=
  residue_injective (by rw [residue_gfmul, residue_fieldOne, one_mul])

/-- Settles O28: the ring of remainders is commutative, and a block is known by its remainder. -/
theorem gfmulCommutesAssociates : Obligations.GfmulCommutesAssociates := by
  unfold Obligations.GfmulCommutesAssociates
  exact ⟨gfmul_comm, gfmul_assoc⟩

/-- Settles O29: the product is additive, and its one is that of the ring of remainders. -/
theorem gfmulDistributesWithUnits : Obligations.GfmulDistributesWithUnits := by
  unfold Obligations.GfmulDistributesWithUnits
  exact ⟨gfmul_xor, fieldOne_gfmul, gfmul_zero_left⟩

end Sys2Proof.Machine
end

section
/-! Absorption by chunks and as a sum of powers (41_ghash.md R132, R134). -/

namespace Sys2Proof.Machine

/-- R132: whole blocks, then the rest. -/
theorem ghashUpdate_append (s : Strategy) (y h : Block) (t : Table) {d e : Bytes} (hd : d.length % 16 = 0) :
    ghashUpdate s y h t (d ++ e) = ghashUpdate s (ghashUpdate s y h t d) h t e := by
  simp only [ghashUpdate, blocks_append hd, List.foldl_append]

theorem gfmul_fieldOne (x : Block) : gfmul x fieldOne = x := by rw [gfmul_comm, fieldOne_gfmul]

/-- Under the key ONE a single block is added. -/
theorem ghashUpdate_fieldOne (y : Block) {d : Bytes} (hd : blocks d = [d]) :
    ghashUpdate .reference y fieldOne .invalid d = y ^^^ pad16 d := by
  rw [ghashUpdate, hd, List.foldl_cons, List.foldl_nil, absorb, mulH_reference, gfmul_fieldOne]

/-- Settles O33. The chunks of one byte that differ from their join: each is padded to a block of its own. -/
theorem chunkingLaw : Obligations.ChunkingLaw := by
  unfold Obligations.ChunkingLaw
  refine ⟨fun s y h t d1 d2 hd => (ghashUpdate_append s y h t hd).symm, fieldOne, [0x00#8], [0x01#8], ?_⟩
  rw [ghashUpdate_fieldOne _ rfl, ghashUpdate_fieldOne _ rfl, List.cons_append, List.nil_append,
    ghashUpdate_fieldOne _ rfl]
  decide

/-- A product distributes over a sum. -/
theorem gfmul_foldl_xor (h : Block) (f : Nat → Block) (js : List Nat) (z : Block) :
    gfmul (js.foldl (fun z j => z ^^^ f j) z) h = js.foldl (fun z j => z ^^^ gfmul (f j) h) (gfmul z h) := by
  induction js generalizing z with
  | nil => rfl
  | cons j js ih => rw [List.foldl_cons, ih, gfmul_xor, List.foldl_cons]

/-- Horner's rule: every further block multiplies the sum so far by H once more. -/
theorem foldl_gfmul_eq_sum (h : Block) (f : Nat → Block) (n : Nat) :
    (List.range n).foldl (fun y j => gfmul (y ^^^ f j) h) 0 =
      (List.range n).foldl (fun z j => z ^^^ (fun v => gfmul v h)^[n - j] (f j)) 0 := by
  induction n with
  | zero => rfl
  | succ n ih =>
    have hpower (z : Block) (j : Nat) (hj : j ∈ List.range n) :
        z ^^^ gfmul ((fun v => gfmul v h)^[n - j] (f j)) h = z ^^^ (fun v => gfmul v h)^[n + 1 - j] (f j) := by
      rw [Nat.succ_sub (List.mem_range.mp hj).le, Function.iterate_succ_apply']
    rw [List.range_succ, List.foldl_append, List.foldl_append, ih, List.foldl_cons, List.foldl_nil, gfmul_xor,
      gfmul_foldl_xor, show gfmul 0 h = 0 from gfmul_zero_left h, List.foldl_ext _ _ _ hpower, List.foldl_cons, List.foldl_nil,
      Nat.add_sub_cancel_left, Function.iterate_one]

/-- Settles O34, by Horner's rule over the numbers of the blocks. -/
theorem hornerForm : Obligations.HornerForm := by
  unfold Obligations.HornerForm
  intro h t d
  rw [ghashUpdate_eq_foldl_blockAt]
  exact foldl_gfmul_eq_sum h (fun j => pad16 (blockAt d j)) _

end Sys2Proof.Machine
end

section
/-! What a response depends on (70_reset_and_hazards.md R231), and what a command does when it is repeated (20_memory.md
R72, 60_exceptions.md R204). -/

namespace Sys2Proof.Machine

/-- The response of a command with these checks and the response `r` of its effect. -/
def firstAnswer (cs : List (Option SubCode)) (r : Response) : Response :=
  match firstFailure cs with
  | some sub => validationResponse sub
  | none => r

section
variable {i : Instr} {s t : State} (ht : exec i s = .next t)
include ht

theorem newResponses_of_checked {cs : List (Option SubCode)} {effect : State → State} {r : Response}
    (hexec : exec i s = checked cs effect s) (heffect : (effect s).responses = s.responses ++ [r]) :
    newResponses s t = [firstAnswer cs r] := by
  rw [hexec] at ht
  obtain ⟨sub, hfail, rfl⟩ | ⟨hpass, rfl⟩ := checked_cases ht
  · rw [firstAnswer, hfail]
    exact newResponses_of_append rfl
  · rw [firstAnswer, hpass]
    exact newResponses_of_append heffect

theorem newResponses_of_exec {c : GcmContext} {g : GhashContext} {r : Response}
    (hexec : exec i s = .next ⟨c, g, s.pending, s.responses ++ [r]⟩) : newResponses s t = [r] := by
  rw [hexec] at ht
  injection ht with ht
  subst ht
  exact newResponses_of_append rfl

theorem contexts_kept_of_checked {cs : List (Option SubCode)} {effect : State → State}
    (hexec : exec i s = checked cs effect s) (hc : (effect s).c = s.c) (hg : (effect s).g = s.g) :
    t.c = s.c ∧ t.g = s.g := by
  rw [hexec] at ht
  obtain ⟨sub, -, rfl⟩ | ⟨-, rfl⟩ := checked_cases ht
  · exact ⟨rfl, rfl⟩
  · exact ⟨hc, hg⟩

end

/-! ## Unused fields -/

/-- Without a session the response of a GCM command is known from the command alone: it starts a session or ends none, or
is out of sequence. -/
theorem gcm_response_of_unused {i : Instr} (hi : Instr.isGcm i) :
    ∃ r : Response, ∀ s t, s.c.phase = .uninitialized → exec i s = .next t → newResponses s t = [r] := by
  cases i with
  | gcmInit st k iv =>
    refine ⟨firstAnswer [none, keyLengthCheck k, ivLengthCheck iv] (okResponse []), fun s t h ht => ?_⟩
    rw [newResponses_of_checked ht (exec_gcmInit st k iv s) rfl, initSequence_none (.inl h)]
  | gcmVerifyDec st k iv a d tag =>
    refine ⟨firstAnswer [none, keyLengthCheck k, ivLengthCheck iv, aadLengthCheck a, dataLengthCheck d.length,
      tagLengthCheck tag] (verifyDecEffect Config.platform st k iv a d tag).2, fun s t h ht => ?_⟩
    rw [newResponses_of_checked ht (exec_gcmVerifyDec st k iv a d tag s) rfl, verifyDecSequence_none (.inl h)]
  | gcmAad a =>
    refine ⟨firstAnswer [some .outOfSequence, aadLengthCheck a] (okResponse []), fun s t h ht => ?_⟩
    rw [newResponses_of_checked ht (exec_gcmAad a s) rfl, aadSequence_outOfSequence (by simp [h]) (by simp [h])]
  | gcmEnc d =>
    exact ⟨_, fun s t h ht => newResponses_of_exec ht (exec_cryptInstr_outOfSequence (dir := .encrypt) (.inl h))⟩
  | gcmDec d =>
    exact ⟨_, fun s t h ht => newResponses_of_exec ht (exec_cryptInstr_outOfSequence (dir := .decrypt) (.inl h))⟩
  | gcmTag => exact ⟨_, fun s t h ht => newResponses_of_exec ht (exec_gcmTag_outOfSequence (by simp [h]))⟩
  | gcmAbort => exact ⟨_, fun s t _ ht => newResponses_of_exec ht (exec_gcmAbort_effect s)⟩
  | gfMul | ghInit | ghUpdate | ghFinal | ghReset | ghOneshot =>
    exact absurd hi (by dsimp only [Instr.isGcm, Instr.opcode]; decide)

/-- Without a key the response of a GHASH command is known from the command alone. -/
theorem gh_response_of_unkeyed {i : Instr} (hi : Instr.isGh i) :
    ∃ r : Response, ∀ s t, s.g.valid = false → exec i s = .next t → newResponses s t = [r] := by
  cases i with
  | ghInit st k => exact ⟨_, fun s t _ ht => newResponses_of_checked ht (exec_ghInit st k s) rfl⟩
  | ghUpdate d =>
    exact ⟨_, fun s t h ht =>
      newResponses_of_exec ht ((exec_ghUpdate d s).trans (checked_ghSequence_of_unkeyed h))⟩
  | ghFinal =>
    exact ⟨_, fun s t h ht =>
      newResponses_of_exec ht ((exec_ghFinal s).trans (checked_ghSequence_of_unkeyed h))⟩
  | ghReset =>
    exact ⟨_, fun s t h ht =>
      newResponses_of_exec ht ((exec_ghReset s).trans (checked_ghSequence_of_unkeyed h))⟩
  | ghOneshot st k a c => exact ⟨_, fun s t _ ht => newResponses_of_checked ht (exec_ghOneshot st k a c s) rfl⟩
  | gfMul | gcmInit | gcmAad | gcmEnc | gcmDec | gcmTag | gcmVerifyDec | gcmAbort =>
    exact absurd hi (by dsimp only [Instr.isGh, Instr.opcode]; decide)

theorem gfMul_response {x y : Block} {s t : State} (ht : exec (.gfMul x y) s = .next t) :
    newResponses s t = [okResponse (gfmul x y).toBytes] := newResponses_of_checked ht (exec_gfMul x y s) rfl

theorem isGcm_or_isGh_or_gfMul (i : Instr) : Instr.isGcm i ∨ Instr.isGh i ∨ ∃ x y, i = .gfMul x y := by
  cases i with
  | gfMul x y => exact .inr (.inr ⟨x, y, rfl⟩)
  | ghInit | ghUpdate | ghFinal | ghReset | ghOneshot =>
    exact .inr (.inl (by dsimp only [Instr.isGh, Instr.opcode]; decide))
  | gcmInit | gcmAad | gcmEnc | gcmDec | gcmTag | gcmVerifyDec | gcmAbort =>
    exact .inl (by dsimp only [Instr.isGcm, Instr.opcode]; decide)

/-- Settles O19: a command on the unused context has one response, and a command on the other context reads that one
alone. -/
theorem unusedFieldsUnread : Obligations.UnusedFieldsUnread := by
  unfold Obligations.UnusedFieldsUnread
  intro i s s' t t' ht ht'
  obtain ⟨hgcm, hgh⟩ := contextsDisjoint i s s' t t' ht ht'
  obtain hi | hi | ⟨x, y, rfl⟩ := isGcm_or_isGh_or_gfMul i
  · obtain ⟨r, hr⟩ := gcm_response_of_unused hi
    exact ⟨fun _ h h' => (hr s t h ht).trans (hr s' t' h' ht').symm, fun hc _ _ => ((hgcm hi).2 hc).2⟩
  · obtain ⟨r, hr⟩ := gh_response_of_unkeyed hi
    exact ⟨fun hg _ _ => ((hgh hi).2 hg).2, fun _ h h' => (hr s t h ht).trans (hr s' t' h' ht').symm⟩
  · rw [gfMul_response ht, gfMul_response ht']
    exact ⟨fun _ _ _ => rfl, fun _ _ _ => rfl⟩

/-! ## Repeated commands -/

/-- A GHASH command that leaves G answers the same again, for it reads nothing else. -/
theorem gh_response_again {i : Instr} (hi : Instr.isGh i) {s t u : State} (ht : exec i s = .next t)
    (hu : exec i t = .next u) (hg : t.g = s.g) : newResponses t u = newResponses s t :=
  (((contextsDisjoint i t s u t hu ht).2 hi).2 hg).2

/-- GH_RESET with and without a key (R130). -/
theorem ghReset_result {s t : State} (ht : exec .ghReset s = .next t) :
    t.c = s.c ∧ t.g = { s.g with y := if s.g.valid then 0 else s.g.y } ∧
      newResponses s t = [if s.g.valid then okResponse [] else validationResponse .ghNotInitialized] := by
  obtain ⟨-, -, hunkeyed, hkeyed⟩ := ghResetCommand
  cases hv : s.g.valid with
  | false =>
    rw [hunkeyed s hv] at ht
    injection ht with ht
    subst ht
    exact ⟨rfl, by rw [if_neg Bool.false_ne_true], newResponses_of_append rfl⟩
  | true =>
    rw [hkeyed s hv] at ht
    injection ht with ht
    subst ht
    exact ⟨rfl, rfl, newResponses_of_append rfl⟩

theorem ghReset_again {s t u : State} (ht : exec .ghReset s = .next t) (hu : exec .ghReset t = .next u) :
    u.c = t.c ∧ u.g = t.g ∧ newResponses t u = newResponses s t := by
  obtain ⟨-, htg, hts⟩ := ghReset_result ht
  obtain ⟨huc, hug, hus⟩ := ghReset_result hu
  refine ⟨huc, ?_, ?_⟩
  · rw [hug, htg]
    cases s.g.valid <;> rfl
  · rw [hus, hts, htg]

theorem gcmAbort_again {s t u : State} (ht : exec .gcmAbort s = .next t) (hu : exec .gcmAbort t = .next u) :
    u.c = t.c ∧ u.g = t.g ∧ newResponses t u = newResponses s t := by
  rw [exec_gcmAbort_effect] at ht hu
  injection ht with ht
  injection hu with hu
  subst ht hu
  simp

/-- Settles O21: the first three commands write nothing, and the context that the other two leave is the one they leave
again. -/
theorem idempotentCommands : Obligations.IdempotentCommands := by
  unfold Obligations.IdempotentCommands
  refine ⟨fun i s t hop ht => ?_, fun i s t u hop ht hu => ?_⟩
  · cases i with
    | gfMul x y =>
      obtain ⟨hc, hg⟩ := contexts_kept_of_checked ht (exec_gfMul x y s) rfl rfl
      exact ⟨hc, hg, fun u hu => by rw [gfMul_response hu, gfMul_response ht]⟩
    | ghFinal =>
      obtain ⟨hc, hg⟩ := contexts_kept_of_checked ht (exec_ghFinal s) rfl rfl
      exact ⟨hc, hg, fun u hu => gh_response_again (by dsimp only [Instr.isGh, Instr.opcode]; decide) ht hu hg⟩
    | ghOneshot st k a d =>
      obtain ⟨hc, hg⟩ := contexts_kept_of_checked ht (exec_ghOneshot st k a d s) rfl rfl
      exact ⟨hc, hg, fun u hu => gh_response_again (by dsimp only [Instr.isGh, Instr.opcode]; decide) ht hu hg⟩
    | ghInit | ghUpdate | ghReset | gcmInit | gcmAad | gcmEnc | gcmDec | gcmTag | gcmVerifyDec | gcmAbort =>
      simp [Instr.opcode] at hop
  · cases i with
    | ghReset => exact ghReset_again ht hu
    | gcmAbort => exact gcmAbort_again ht hu
    | gfMul | ghInit | ghUpdate | ghFinal | ghOneshot | gcmInit | gcmAad | gcmEnc | gcmDec | gcmTag | gcmVerifyDec =>
      simp [Instr.opcode] at hop

/-- Settles O50: the comparison is exact on strings of one length. -/
theorem tagComparisonExact : Obligations.TagComparisonExact := by
  unfold Obligations.TagComparisonExact
  exact fun t u ht hu => tagsEqual_iff_eq (ht.trans hu.symm)

theorem verifyDecEffect_of_failure {p : Platform} {st : Strategy} {k iv a d t : Bytes}
    (h : (verifyDecEffect p st k iv a d t).2.status = .authenticationFailure) :
    (verifyDecEffect p st k iv a d t).2 = authFailureResponse d.length := by
  revert h
  unfold verifyDecEffect
  dsimp only
  split
  · exact nofun
  · exact fun _ => rfl

/-- Settles O52: the command starts a session of its own, so from FINALIZED it does all that it did. -/
theorem authFailureNotTransient : Obligations.AuthFailureNotTransient := by
  unfold Obligations.AuthFailureNotTransient
  intro st k iv a d tag s s1 r h hr hstatus
  rw [exec_gcmVerifyDec] at h
  obtain ⟨sub, -, rfl⟩ | ⟨hpass, rfl⟩ := checked_cases h
  · obtain rfl := eq_of_responses hr rfl
    nomatch hstatus
  obtain rfl := eq_of_responses hr rfl
  have hresponse := verifyDecEffect_of_failure hstatus
  have hpass' := firstFailure_cons_eq_none.mpr
    ⟨verifyDecSequence_none (c := (verifyDecEffect Config.platform st k iv a d tag).1) (.inr rfl),
      (firstFailure_cons_eq_none.mp hpass).2⟩
  refine ⟨congrArg Response.out hresponse, rfl, rfl, ?_⟩
  rw [exec_gcmVerifyDec]
  refine (checked_of_pass hpass' _ _).trans ?_
  rw [hresponse]
  rfl

end Sys2Proof.Machine
end

section
/-! Passes over the data of a session (42_gcm.md R153, R164, R165, R169): the output depends on the key and the counter
alone, so a pass can be cut at a block, undone, and compared with its input. -/

namespace Sys2Proof.Machine

/-! ## Byte strings block by block -/

theorem eq_of_blockAt {a b : Bytes} (hlen : a.length = b.length)
    (h : ∀ j < blockCount a.length, blockAt a j = blockAt b j) : a = b := by
  rw [← flatten_blocks a, ← flatten_blocks b, blocks_eq_map, blocks_eq_map, ← hlen]
  exact congrArg List.flatten (List.map_congr_left fun j hj => h j (List.mem_range.mp hj))

theorem zipWith_xor_cancel {a b : Bytes} (h : a.length ≤ b.length) :
    List.zipWith (· ^^^ ·) (List.zipWith (· ^^^ ·) a b) b = a := by
  induction a generalizing b with
  | nil => simp
  | cons x a ih =>
    obtain _ | ⟨y, b⟩ := b
    · simp at h
    · rw [List.zipWith_cons_cons, List.zipWith_cons_cons, ih (Nat.le_of_succ_le_succ h), BitVec.xor_assoc,
        BitVec.xor_self, BitVec.xor_zero]

/-- The same keystream block decrypts what it has encrypted. -/
theorem xorKeystream_cancel {b : Bytes} (h : b.length ≤ 16) (ks : Block) : xorKeystream (xorKeystream b ks) ks = b :=
  zipWith_xor_cancel (h.trans_eq (length_toBytes ks).symm)

theorem beBytes_xor (n a b : Nat) : beBytes n (a ^^^ b) = List.zipWith (· ^^^ ·) (beBytes n a) (beBytes n b) := by
  induction n with
  | zero => rfl
  | succ n ih =>
    rw [beBytes, beBytes, beBytes, List.zipWith_cons_cons, ih, show 256 ^ n = 2 ^ (8 * n) from pow_mul 2 8 n |>.symm,
      Nat.xor_div_two_pow, BitVec.ofNat_xor]

theorem xorKeystream_toBytes (b ks : Block) : xorKeystream b.toBytes ks = (b ^^^ ks).toBytes := by
  rw [xorKeystream, Block.toBytes, Block.toBytes, Block.toBytes, BitVec.toNat_xor, beBytes_xor]

/-- A whole block XORed with a keystream block, as blocks. -/
theorem ofBytes_xorKeystream {b : Bytes} (h : b.length = 16) (ks : Block) :
    Block.ofBytes (xorKeystream b ks) = Block.ofBytes b ^^^ ks := by
  rw [← toBytes_ofBytes b h, xorKeystream_toBytes, ofBytes_toBytes, ofBytes_toBytes]

/-! ## The output of a pass -/

/-- Two contexts with one key and one counter give one output, in either direction. -/
theorem sessionCrypt_output_congr {p : Platform} (dir dir' : Direction) (data : Bytes) {c c' : GcmContext}
    (hkey : c.key = c'.key) (hctr : c.ctr = c'.ctr) :
    (sessionCrypt p dir data c).2 = (sessionCrypt p dir' data c').2 := by
  have hlen := length_sessionCrypt p dir data c
  refine eq_of_blockAt (hlen.trans (length_sessionCrypt p dir' data c').symm) fun j hj => ?_
  rw [hlen] at hj
  rw [blockAt_sessionCrypt p dir c hj, blockAt_sessionCrypt p dir' c' hj, hkey, hctr]

/-- R165: a pass over the output of a pass gives the input back. -/
theorem sessionCrypt_sessionCrypt {p : Platform} (dir dir' : Direction) (data : Bytes) {c c' : GcmContext}
    (hkey : c'.key = c.key) (hctr : c'.ctr = c.ctr) :
    (sessionCrypt p dir' (sessionCrypt p dir data c).2 c').2 = data := by
  have hlen := length_sessionCrypt p dir data c
  have hlen' := length_sessionCrypt p dir' (sessionCrypt p dir data c).2 c'
  refine eq_of_blockAt (hlen'.trans hlen) fun j hj => ?_
  rw [hlen'] at hj
  rw [blockAt_sessionCrypt p dir' c' hj]
  rw [hlen] at hj
  rw [blockAt_sessionCrypt p dir c hj, hkey, hctr, xorKeystream_cancel (by simp)]

/-! ## Two passes in a row (R164) -/

theorem blockCount_add {m n : Nat} (h : m % 16 = 0) : blockCount (m + n) = blockCount m + blockCount n := by
  unfold blockCount
  omega

theorem hashedText_append (dir : Direction) (d1 d2 o1 o2 : Bytes) :
    hashedText dir (d1 ++ d2) (o1 ++ o2) = hashedText dir d1 o1 ++ hashedText dir d2 o2 := by
  cases dir <;> rfl

section
variable {p : Platform} {dir : Direction} {d1 d2 : Bytes} {c : GcmContext} (hwhole : d1.length % 16 = 0)
include hwhole

theorem sessionCrypt_append_output :
    (sessionCrypt p dir (d1 ++ d2) c).2 =
      (sessionCrypt p dir d1 c).2 ++ (sessionCrypt p dir d2 (sessionCrypt p dir d1 c).1).2 := by
  have hpasses : (sessionCrypt p dir (d1 ++ d2) c).2 =
      (cryptBlocks p dir (blocks d1) c).2 ++
        (cryptBlocks p dir (blocks d2) (cryptBlocks p dir (blocks d1) c).1).2 := by
    rw [sessionCrypt, blocks_append hwhole, cryptBlocks_append]
  exact hpasses.trans (congrArg _ (sessionCrypt_output_congr (c := (cryptBlocks p dir (blocks d1) c).1) dir dir d2 rfl rfl))

theorem sessionCrypt_append_context :
    (sessionCrypt p dir (d1 ++ d2) c).1 = (sessionCrypt p dir d2 (sessionCrypt p dir d1 c).1).1 := by
  have hhashed : (hashedText dir d1 (sessionCrypt p dir d1 c).2).length % 16 = 0 := by
    rw [length_hashedText_sessionCrypt, hwhole]
  rw [sessionCrypt_context, sessionCrypt_append_output hwhole, hashedText_append, ghashUpdate_append _ _ _ _ hhashed,
    sessionCrypt_context p dir d2, sessionCrypt_context p dir d1]
  simp only [List.length_append, blockCount_add hwhole, BitVec.ofNat_add, ← BitVec.add_assoc,
    Nat.add_comm (blockCount d1.length), Function.iterate_add_apply]

end

/-- A pass that is answered with OK was taken, within its bound. -/
theorem cryptInstr_of_ok {dir : Direction} {data out : Bytes} {s t : State}
    (h : exec (cryptInstr dir data) s = .next t) (hr : t.responses = s.responses ++ [⟨.ok, none, out⟩]) :
    s.c.takesData dir ∧ s.c.cLen.toNat + data.length ≤ Config.cMaxBytes ∧
      out = (sessionCrypt Config.platform dir data s.c).2 ∧
      t = (s.setC (sessionCrypt Config.platform dir data s.c).1).respond (okResponse out) := by
  rw [exec_cryptInstr] at h
  obtain ⟨sub, -, rfl⟩ | ⟨hpass, rfl⟩ := checked_cases h
  · simp [validationResponse] at hr
  · simp only [firstFailure_cons_eq_none, cryptSequence_eq_none_iff, dataLengthCheck_eq_none_iff] at hpass
    obtain ⟨htakes, hlen, -⟩ := hpass
    have hout : out = (sessionCrypt Config.platform dir data s.c).2 :=
      congrArg Response.out (eq_of_responses hr rfl)
    exact ⟨htakes, hlen, hout, by rw [hout]⟩

end Sys2Proof.Machine
end

section
/-! Whole messages (42_gcm.md section 4, 30_encoding.md R105): GCM_SEAL by its commands, what it answers, and how
GCM_VERIFY_DEC opens it. -/

namespace Sys2Proof.Machine

/-! ## Two passes as one (R164) -/

theorem cryptInstr_append {dir : Direction} {d1 d2 o1 o2 : Bytes} {s s1 s2 : State} (hwhole : d1.length % 16 = 0)
    (h1 : exec (cryptInstr dir d1) s = .next s1) (h2 : exec (cryptInstr dir d2) s1 = .next s2)
    (hr : s2.responses = s.responses ++ [⟨.ok, none, o1⟩, ⟨.ok, none, o2⟩]) :
    exec (cryptInstr dir (d1 ++ d2)) s =
      .next ⟨s2.c, s.g, s.pending, s.responses ++ [⟨.ok, none, o1 ++ o2⟩]⟩ := by
  obtain ⟨r1, hr1, -⟩ := oneResponsePerCommand _ _ _ h1
  obtain ⟨r2, hr2, -⟩ := oneResponsePerCommand _ _ _ h2
  obtain ⟨rfl, rfl⟩ : r1 = ⟨.ok, none, o1⟩ ∧ r2 = ⟨.ok, none, o2⟩ := by simpa [hr1, hr2] using hr
  obtain ⟨htakes, hlen1, rfl, rfl⟩ := cryptInstr_of_ok h1 hr1
  obtain ⟨-, hlen2, rfl, rfl⟩ := cryptInstr_of_ok h2 hr2
  have hlen : s.c.cLen.toNat + (d1 ++ d2).length ≤ Config.cMaxBytes := by
    rw [List.length_append, ← Nat.add_assoc, ← toNat_sessionCrypt_cLen (p := Config.platform) (dir := dir) hlen1]
    exact hlen2
  rw [exec_cryptInstr_of_pass htakes hlen, sessionCrypt_append_context hwhole, sessionCrypt_append_output hwhole]
  rfl

/-- Settles O57, for both directions by one lemma. -/
theorem chunkedPass : Obligations.ChunkedPass := by
  unfold Obligations.ChunkedPass
  exact fun _ _ _ _ _ _ _ hwhole =>
    ⟨cryptInstr_append (dir := .encrypt) hwhole, cryptInstr_append (dir := .decrypt) hwhole⟩

/-! ## FIRST_COUNTER = J0 (R169) -/

/-- Settles O58: the first keystream block is the block that masks the tag. -/
theorem firstCounterJ0LeaksHash : Obligations.FirstCounterJ0LeaksHash := by
  unfold Obligations.FirstCounterJ0LeaksHash
  intro p st k iv a b hp hb c0 r fin
  have hctr : c0.ctr = c0.j0 := by
    change firstCounterBlock p _ = _
    rw [firstCounterBlock, hp]
    rfl
  have hfull : (blockAt b 0).length = 16 := by
    rw [length_blockAt]
    omega
  have hfirst : blockAt r.2 0 = xorKeystream (blockAt b 0) (p.cipher c0.key c0.j0) := by
    rw [← hctr]
    exact blockAt_sessionCrypt p .encrypt c0 (j := 0) (lt_blockCount_iff.mpr (by omega))
  have htag : fin.2 = p.cipher c0.key c0.j0 ^^^ fin.1.y := by
    change p.cipher r.1.key r.1.j0 ^^^ fin.1.y = _
    rw [show r.1 = _ from sessionCrypt_context p .encrypt b c0]
  rw [hfirst, ofBytes_xorKeystream hfull, htag]
  generalize Block.ofBytes (blockAt b 0) = x
  generalize p.cipher c0.key c0.j0 = ks
  calc x ^^^ ks ^^^ x ^^^ (ks ^^^ fin.1.y) = (x ^^^ x) ^^^ (ks ^^^ ks) ^^^ fin.1.y := by ac_rfl
    _ = fin.1.y := by rw [BitVec.xor_self, BitVec.xor_self, BitVec.xor_zero, BitVec.zero_xor]

/-! ## GCM_SEAL command by command (R105) -/

section
variable {i : Instr} {rest : List Instr} {s : State}

theorem runWhileOk_cons_ok {u : State} {out : Bytes} (h : exec i s = .next (u.respond (okResponse out))) :
    runWhileOk (i :: rest) s = runWhileOk rest (u.respond (okResponse out)) := by
  have hok : lastOk (u.respond (okResponse out)) = true := by simp [lastOk]
  rw [runWhileOk, h]
  exact if_pos hok

theorem runWhileOk_cons_refused {sub : SubCode}
    (h : exec i s = .next ⟨s.c, s.g, s.pending, s.responses ++ [⟨.validationError, some sub, []⟩]⟩) :
    runWhileOk (i :: rest) s =
      .next ⟨s.c, s.g, s.pending, s.responses ++ [⟨.validationError, some sub, []⟩]⟩ := by
  have hnot : ¬ lastOk ⟨s.c, s.g, s.pending, s.responses ++ [⟨.validationError, some sub, []⟩]⟩ = true := by
    simp [lastOk]
  rw [runWhileOk, h]
  exact if_neg hnot

end

/-- Settles O54: the refusals are those of the single commands, on the states that the accepted ones before them leave. -/
theorem sealStopsAtFirstFailure : Obligations.SealStopsAtFirstFailure := by
  unfold Obligations.SealStopsAtFirstFailure
  intro st k iv a p s stopsIn idle ivOk
  obtain ⟨-, -, hinit, -⟩ := gcmInitCommand
  obtain ⟨hopen, hkey, hiv⟩ := hinit st k iv s
  obtain ⟨-, -, haad, -⟩ := gcmAadCommand
  refine ⟨fun h => runWhileOk_cons_refused (hopen h), fun hidle hk => runWhileOk_cons_refused (hkey hidle hk),
    fun hidle hk hbad => runWhileOk_cons_refused (hiv hidle hk (by omega)),
    fun hidle hk ⟨hpos, hmax⟩ ha => ?_, fun hidle hk ⟨hpos, hmax⟩ ha hp => ?_⟩
  · have h1 := exec_gcmInit_of_pass (st := st) hidle hk hpos hmax
    refine ⟨_, h1, rfl, ?_⟩
    change runWhileOk _ s = _
    rw [sealCommands, runWhileOk_cons_ok h1]
    exact runWhileOk_cons_refused ((haad a _).2.2 rfl ha)
  · have h1 := exec_gcmInit_of_pass (st := st) hidle hk hpos hmax
    have h2 := exec_gcmAad_of_pass (a := a)
      (s := (s.setC (sessionInit Config.platform st k iv)).respond (okResponse [])) rfl ha
    refine ⟨_, _, h1, h2, by simp [okResponse], ?_⟩
    change runWhileOk _ s = _
    rw [sealCommands, runWhileOk_cons_ok h1, runWhileOk_cons_ok h2]
    exact runWhileOk_cons_refused
      (exec_cryptInstr_badDataLength (dir := .encrypt) (.inr (.inl rfl)) (hp.trans_eq (Nat.zero_add _).symm))

end Sys2Proof.Machine
end

section
/-! A whole message sealed and opened (42_gcm.md R163, R165): the output and the tag in terms of the key, J0 and the texts,
the same for both strategies. -/

namespace Sys2Proof.Machine

/-! ## J0 and the hash for either strategy (R133) -/

theorem deriveJ0_tableFor (st : Strategy) (h : Block) (iv : Bytes) :
    deriveJ0 st h (tableFor st h) iv = deriveJ0 .reference h .invalid iv := by
  by_cases hlen : iv.length = Config.fastIvBytes
  · rw [deriveJ0, deriveJ0, if_pos hlen, if_pos hlen]
  · rw [deriveJ0_of_length_ne hlen]
    exact (deriveJ0_of_length_ne (s := .reference) hlen).symm

theorem sessionInit_j0 (p : Platform) (st : Strategy) (k iv : Bytes) :
    (sessionInit p st k iv).j0 = deriveJ0 .reference (p.cipher (Key.ofBytes k) 0) .invalid iv :=
  deriveJ0_tableFor st _ iv

/-! ## The tag of a session -/

/-- A context that has absorbed the AAD `a` and no data, with the table its strategy needs. -/
def BeforeData (a : Bytes) (c : GcmContext) : Prop :=
  c.tbl = tableFor c.strat c.h ∧ c.y = ghashUpdate c.strat 0 c.h c.tbl a ∧ c.aadLen.toNat = a.length ∧
    c.cLen.toNat = 0

theorem beforeData_sessionInit (p : Platform) (st : Strategy) (k iv : Bytes) : BeforeData [] (sessionInit p st k iv) :=
  ⟨rfl, rfl, rfl, rfl⟩

theorem beforeData_sessionAad (p : Platform) (st : Strategy) (k iv : Bytes) {a : Bytes}
    (ha : a.length ≤ Config.aadMaxBytes) : BeforeData a (sessionAad a (sessionInit p st k iv)) :=
  ⟨rfl, rfl, toNat_ofNat_of_le_bound ha, rfl⟩

/-- R163: the tag is the masked hash of the AAD and the ciphertext. -/
theorem sessionTag_sessionCrypt {p : Platform} {dir : Direction} {data a : Bytes} {c : GcmContext}
    (h : BeforeData a c) (hlen : data.length ≤ Config.cMaxBytes) :
    (sessionTag p (sessionCrypt p dir data c).1).2 = p.cipher c.key c.j0 ^^^
      ghash .reference c.h .invalid a (hashedText dir data (sessionCrypt p dir data c).2) := by
  obtain ⟨htable, hhash, haad, hnone⟩ := h
  have hcLen : (sessionCrypt p dir data c).1.cLen.toNat = data.length := by
    rw [toNat_sessionCrypt_cLen (by rwa [hnone, Nat.zero_add]), hnone, Nat.zero_add]
  have hstrategies : ghash .reference c.h .invalid a (hashedText dir data (sessionCrypt p dir data c).2) =
      ghash c.strat c.h c.tbl a (hashedText dir data (sessionCrypt p dir data c).2) := by
    rw [htable, ghash_tableFor]
    exact ghash_tableFor .reference _ _ _
  rw [hstrategies, ghash, ghashUpdate_toBytes, length_hashedText_sessionCrypt, ← hhash, ← haad, sessionTag, hcLen, sessionCrypt_context]

/-! ## The messages -/

/-- Encrypting in an accepted session and tagging answers the pass and its tag. -/
theorem runWhileOk_enc_tag {d : Bytes} {s : State} (htakes : s.c.takesData .encrypt)
    (hlen : s.c.cLen.toNat + d.length ≤ Config.cMaxBytes) :
    runWhileOk [.gcmEnc d, .gcmTag] s =
      .next ⟨(sessionTag Config.platform (sessionCrypt Config.platform .encrypt d s.c).1).1, s.g, s.pending,
        s.responses ++ [⟨.ok, none, (sessionCrypt Config.platform .encrypt d s.c).2⟩,
          ⟨.ok, none, (sessionTag Config.platform (sessionCrypt Config.platform .encrypt d s.c).1).2.toBytes⟩]⟩ := by
  have henc := exec_cryptInstr_of_pass (dir := .encrypt) htakes hlen
  rw [runWhileOk_cons_ok (i := .gcmEnc d) henc, runWhileOk_cons_ok (exec_gcmTag_of_pass rfl), runWhileOk]
  simp [State.respond, State.setC, okResponse]

section
variable {st : Strategy} {k iv a d : Bytes} {s : State}
  (hidle : s.c.phase = .uninitialized ∨ s.c.phase = .finalized) (hk : k.length = Config.keyBytes)
  (hpos : 0 < iv.length) (hmax : iv.length ≤ Config.ivMaxBytes)
include hidle hk hpos hmax

/-- GCM_SEAL with all lengths within their bounds (R105). -/
theorem gcmSeal_of_pass (ha : a.length ≤ Config.aadMaxBytes) (hd : d.length ≤ Config.cMaxBytes) :
    let r := sessionCrypt Config.platform .encrypt d (sessionAad a (sessionInit Config.platform st k iv))
    gcmSeal st k iv a d s =
      .next ⟨(sessionTag Config.platform r.1).1, s.g, s.pending, s.responses ++
        [⟨.ok, none, []⟩, ⟨.ok, none, []⟩, ⟨.ok, none, r.2⟩,
          ⟨.ok, none, (sessionTag Config.platform r.1).2.toBytes⟩]⟩ := by
  intro r
  have hinit := exec_gcmInit_of_pass (st := st) hidle hk hpos hmax
  have haad := exec_gcmAad_of_pass (a := a)
    (s := (s.setC (sessionInit Config.platform st k iv)).respond (okResponse [])) rfl ha
  rw [gcmSeal, sealCommands, runWhileOk_cons_ok hinit, runWhileOk_cons_ok haad, runWhileOk_enc_tag]
  · simp [r, okResponse]
  · exact .inr (.inl rfl)
  · exact (Nat.zero_add _).trans_le hd

/-- A session without GCM_AAD. -/
theorem runWhileOk_without_aad (hd : d.length ≤ Config.cMaxBytes) :
    let r := sessionCrypt Config.platform .encrypt d (sessionInit Config.platform st k iv)
    runWhileOk [.gcmInit st k iv, .gcmEnc d, .gcmTag] s =
      .next ⟨(sessionTag Config.platform r.1).1, s.g, s.pending, s.responses ++
        [⟨.ok, none, []⟩, ⟨.ok, none, r.2⟩, ⟨.ok, none, (sessionTag Config.platform r.1).2.toBytes⟩]⟩ := by
  intro r
  have hinit := exec_gcmInit_of_pass (st := st) hidle hk hpos hmax
  rw [runWhileOk_cons_ok hinit, runWhileOk_enc_tag]
  · simp [r, okResponse]
  · exact .inl rfl
  · exact (Nat.zero_add _).trans_le hd

end

/-- The first counter as steps from J0 (R152). -/
theorem iterate_firstCounterBlock (p : Platform) (j : Nat) (j0 : Block) :
    inc32^[j] (firstCounterBlock p j0) = inc32^[j + match p.firstCounter with
      | .inc32J0 => 1
      | .j0 => 0] j0 := by
  unfold firstCounterBlock
  cases p.firstCounter <;> rfl

/-- Settles O55: both runs are passes over the same data with the same key and counter, and their tags differ in the AAD
alone. -/
theorem sealWholeMessage : Obligations.SealWholeMessage := by
  unfold Obligations.SealWholeMessage
  intro st k iv a d s hidle hk hpos hmax ha hd key h j0 f tag
  have hseal := gcmSeal_of_pass (st := st) hidle hk hpos hmax ha hd
  have hplain := runWhileOk_without_aad (st := st) hidle hk hpos hmax hd
  have houtput : (sessionCrypt Config.platform .encrypt d (sessionInit Config.platform st k iv)).2 =
      (sessionCrypt Config.platform .encrypt d (sessionAad a (sessionInit Config.platform st k iv))).2 :=
    sessionCrypt_output_congr .encrypt .encrypt d rfl rfl
  have hj0 : (sessionInit Config.platform st k iv).j0 = j0 := sessionInit_j0 Config.platform st k iv
  have htag := sessionTag_sessionCrypt (p := Config.platform) (dir := .encrypt)
    (beforeData_sessionAad Config.platform st k iv ha) hd
  have htag' := sessionTag_sessionCrypt (p := Config.platform) (dir := .encrypt)
    (beforeData_sessionInit Config.platform st k iv) hd
  refine ⟨_, _, (sessionCrypt Config.platform .encrypt d (sessionAad a (sessionInit Config.platform st k iv))).2,
    length_sessionCrypt _ _ _ _, fun j hj => ?_, hseal, ?_, rfl, rfl, rfl, hplain, ?_, rfl, rfl, rfl⟩
  · rw [blockAt_sessionCrypt _ _ _ hj, sessionAad_ctr, sessionInit_ctr, hj0, iterate_firstCounterBlock]
    rfl
  · rw [htag, sessionAad_j0, hj0]
    rfl
  · rw [htag', houtput, hj0]
    rfl

/-- A GCM_SEAL that answers four responses has passed every check: each refusal answers fewer. -/
theorem lengths_of_gcmSeal_four {st : Strategy} {k iv a d : Bytes} {s t : State} {r1 r2 r3 r4 : Response}
    (h : gcmSeal st k iv a d s = .next t) (hr : t.responses = s.responses ++ [r1, r2, r3, r4]) :
    (s.c.phase = .uninitialized ∨ s.c.phase = .finalized) ∧ k.length = Config.keyBytes ∧ 0 < iv.length ∧
      iv.length ≤ Config.ivMaxBytes ∧ a.length ≤ Config.aadMaxBytes ∧ d.length ≤ Config.cMaxBytes := by
  have hfew {u : State} {rs : List Response} {sub : SubCode} (hu : u.responses = s.responses ++ rs)
      (hstop : gcmSeal st k iv a d s =
        .next ⟨u.c, u.g, u.pending, u.responses ++ [⟨.validationError, some sub, []⟩]⟩) : rs.length = 3 := by
    rw [h] at hstop
    injection hstop with hstop
    subst hstop
    simpa [hu] using congrArg List.length hr
  obtain ⟨hopen, hkey, hiv, haad, hdata⟩ := sealStopsAtFirstFailure st k iv a d s
  have hidle := (idle_or_inSession s.c).resolve_right fun hin =>
    absurd (hfew (rs := []) (List.append_nil _).symm (hopen hin)) (by decide)
  have hk : k.length = 16 := by
    by_contra hk
    exact absurd (hfew (rs := []) (List.append_nil _).symm (hkey hidle hk)) (by decide)
  have hivOk : 0 < iv.length ∧ iv.length ≤ 2 ^ 61 - 1 := by
    by_contra hbad
    exact absurd (hfew (rs := []) (List.append_nil _).symm (hiv hidle hk hbad)) (by decide)
  have ha : a.length ≤ 2 ^ 61 - 1 := by
    by_contra ha
    obtain ⟨s1, -, hs1, hstop⟩ := haad hidle hk hivOk (Nat.not_le.mp ha)
    exact absurd (hfew hs1 hstop) (by simp)
  have hd : d.length ≤ 2 ^ 61 - 1 := by
    by_contra hd
    obtain ⟨s1, s2, -, -, hs2, hstop⟩ := hdata hidle hk hivOk ha (Nat.not_le.mp hd)
    exact absurd (hfew hs2 hstop) (by simp)
  exact ⟨hidle, hk, hivOk.1, hivOk.2, ha, hd⟩

/-- What one strategy has sealed the other opens: the plaintext and the tag (R165). -/
theorem openedSession_sealed (p : Platform) (st st' : Strategy) (k iv : Bytes) {a d : Bytes}
    (ha : a.length ≤ Config.aadMaxBytes) (hd : d.length ≤ Config.cMaxBytes) :
    let r := sessionCrypt p .encrypt d (sessionAad a (sessionInit p st k iv))
    (openedSession p st' k iv a r.2).2 = d ∧
      (sessionTag p (openedSession p st' k iv a r.2).1).2 = (sessionTag p r.1).2 := by
  intro r
  have hj0 : (sessionInit p st' k iv).j0 = (sessionInit p st k iv).j0 := by rw [sessionInit_j0, sessionInit_j0]
  have hctr : (sessionInit p st' k iv).ctr = (sessionInit p st k iv).ctr := by
    rw [sessionInit_ctr, sessionInit_ctr, hj0]
  have hlen : r.2.length ≤ Config.cMaxBytes := (length_sessionCrypt _ _ _ _).trans_le hd
  constructor
  · exact sessionCrypt_sessionCrypt .encrypt .decrypt d rfl hctr
  · rw [openedSession, sessionTag_sessionCrypt (beforeData_sessionAad p st' k iv ha) hlen,
      sessionTag_sessionCrypt (beforeData_sessionAad p st k iv ha) hd, sessionAad_j0, sessionAad_j0, hj0]
    simp only [r, hashedText, sessionAad_key, sessionInit_key, sessionAad_h, sessionInit_h]

/-- Settles O56: the sealed lengths pass the checks of GCM_VERIFY_DEC, and the tag it computes is the one it gets. -/
theorem sealThenVerifyRoundTrip : Obligations.SealThenVerifyRoundTrip := by
  unfold Obligations.SealThenVerifyRoundTrip
  intro st st' k iv a d c tag s t s' r1 r2 h hr hidle'
  obtain ⟨hidle, hk, hpos, hmax, ha, hd⟩ := lengths_of_gcmSeal_four h hr
  rw [gcmSeal_of_pass hidle hk hpos hmax ha hd] at h
  injection h with h
  subst h
  obtain ⟨-, -, rfl, rfl⟩ : _ ∧ _ ∧ _ = c ∧ _ = tag := by simpa using hr
  obtain ⟨hplain, htag⟩ := openedSession_sealed Config.platform st st' k iv ha hd
  have hc := (length_sessionCrypt Config.platform .encrypt d
    (sessionAad a (sessionInit Config.platform st k iv))).trans_le hd
  refine ⟨_, exec_gcmVerifyDec_of_pass hidle' hk hpos hmax ha hc (length_toBytes _), ?_, rfl⟩
  rw [respond_responses, verifyDecEffect_response (length_toBytes _), htag, if_pos rfl, hplain]
  rfl

end Sys2Proof.Machine
end

section
/-! The assembler text (30_encoding.md R104): each part of what is written is read back, and the next part begins where the
reading stops. -/

namespace Sys2Proof.Machine

/-! ## Names -/

/-- The name in front of the operands: the mnemonic, with `.T` where S = 1. -/
def nameText (o : Opcode) (s : Strategy) : List Char :=
  (mnemonic o).toList ++ if s = .table then ['.', 'T'] else []

theorem nameText_no_space (o : Opcode) (s : Strategy) : ∀ c ∈ nameText o s, (c != ' ') = true := by
  have hall : (nameText o s).all (· != ' ') = true := by cases o <;> cases s <;> rfl
  exact List.all_eq_true.mp hall

theorem readName_nameText {o : Opcode} {s : Strategy} (h : s.bit = true → o.usesStrategy = true) :
    readName (nameText o s) = some (o, s) := by
  cases s with
  | reference => cases o <;> decide
  | table =>
    cases o with
    | ghInit | ghOneshot | gcmInit | gcmVerifyDec => decide
    | gfMul | ghUpdate | ghFinal | ghReset | gcmAad | gcmEnc | gcmDec | gcmTag | gcmAbort => nomatch h rfl

/-! ## Operands -/

theorem hexValue_hexDigit {n : Nat} (h : n < 16) : hexValue (hexDigit n) = some n := by
  have hall : ∀ n < 16, hexValue (hexDigit n) = some n := by decide
  exact hall n h

/-- The two digits of a byte, before any text. -/
theorem readHex_byte (x : Byte) (cs : List Char) :
    readHex (hexDigit (x.toNat / 16) :: hexDigit (x.toNat % 16) :: cs) = (x :: (readHex cs).1, (readHex cs).2) := by
  have hx : x.toNat < 256 := x.isLt
  rw [readHex, hexValue_hexDigit (by omega), hexValue_hexDigit (by omega)]
  simp only [Nat.div_add_mod, BitVec.ofNat_toNat, BitVec.setWidth_eq]

/-- An operand is read up to the text where no further byte can be read. -/
theorem readOperand_writeOperand (b : Bytes) {cs : List Char} (h : readHex cs = ([], cs)) :
    readOperand (writeOperand b ++ cs) = some (b, cs) := by
  have hread : readHex (b.flatMap (fun x => [hexDigit (x.toNat / 16), hexDigit (x.toNat % 16)]) ++ cs) = (b, cs) := by
    induction b with
    | nil => exact h
    | cons x b ih =>
      rw [List.flatMap_cons, List.append_assoc, List.cons_append, List.cons_append, List.nil_append, readHex_byte, ih]
  rw [writeOperand, List.cons_append, List.cons_append, readOperand, hread]

theorem writeOperands_cons (b : Bytes) (bs : List Bytes) :
    ∃ cs, writeOperands (b :: bs) = '0' :: cs := by
  cases bs <;> exact ⟨_, rfl⟩

theorem writeOperands_cons_cons (b b' : Bytes) (bs : List Bytes) :
    writeOperands (b :: b' :: bs) = writeOperand b ++ [',', ' '] ++ writeOperands (b' :: bs) := rfl

theorem readOperands_writeOperands {n : Nat} {b : Bytes} {bs : List Bytes} (hn : bs.length < n) :
    readOperands n (writeOperands (b :: bs)) = some (b :: bs) := by
  induction bs generalizing n b with
  | nil =>
    obtain ⟨n, rfl⟩ := Nat.exists_eq_succ_of_ne_zero (Nat.ne_of_gt hn)
    have hb : readOperand (writeOperands [b]) = some (b, []) := by
      rw [writeOperands, ← List.append_nil (writeOperand b)]
      exact readOperand_writeOperand b rfl
    rw [readOperands, hb]
    rfl
  | cons b' bs ih =>
    obtain ⟨n, rfl⟩ := Nat.exists_eq_succ_of_ne_zero (Nat.ne_of_gt (Nat.zero_lt_of_lt hn))
    obtain ⟨cs, hcs⟩ := writeOperands_cons b' bs
    have hb : readOperand (writeOperands (b :: b' :: bs)) = some (b, ',' :: ' ' :: writeOperands (b' :: bs)) := by
      rw [writeOperands_cons_cons, List.append_assoc]
      exact readOperand_writeOperand b rfl
    have hnext : skipSpaces (' ' :: writeOperands (b' :: bs)) = writeOperands (b' :: bs) := by
      rw [hcs]
      rfl
    have hcomma : skipSpaces (',' :: ' ' :: writeOperands (b' :: bs)) = ',' :: ' ' :: writeOperands (b' :: bs) := rfl
    rw [readOperands, hb]
    simp only [hcomma, hnext, ih (Nat.lt_of_succ_lt_succ hn)]

/-- Each operand takes a character at least, so the number of characters bounds the number of operands. -/
theorem length_le_length_writeOperands (ops : List Bytes) : ops.length ≤ (writeOperands ops).length := by
  induction ops with
  | nil => simp [writeOperands]
  | cons b bs ih =>
    cases bs with
    | nil => simp [writeOperands, writeOperand]
    | cons b' bs =>
      simp only [writeOperands, List.length_append, List.length_cons] at ih ⊢
      omega

/-! ## Lines -/

theorem disassemble_eq (i : Instr) : disassemble i =
    nameText i.opcode i.strategy ++ match i.operands with
      | [] => []
      | b :: bs => ' ' :: writeOperands (b :: bs) := by
  rw [disassemble, nameText]
  cases i.operands <;> simp

/-- Settles O9: the name ends at the first space, and behind it stand the operands, of which the text has enough
characters for each. -/
theorem assembleDisassemble : Obligations.AssembleDisassemble := by
  unfold Obligations.AssembleDisassemble
  intro i
  have hname := readName_nameText (usesStrategy_of_strategy_bit (i := i))
  have hspace := nameText_no_space i.opcode i.strategy
  rw [disassemble_eq, assemble, encode]
  cases hops : i.operands with
  | nil =>
    simp only [List.append_nil, List.takeWhile_eq_self_iff.mpr hspace, List.dropWhile_eq_nil_iff.mpr hspace, hname]
    rfl
  | cons b bs =>
    obtain ⟨cs, hcs⟩ := writeOperands_cons b bs
    have htake : (nameText i.opcode i.strategy ++ ' ' :: writeOperands (b :: bs)).takeWhile (· != ' ') =
        nameText i.opcode i.strategy := by
      rw [List.takeWhile_append_of_pos hspace]
      simp
    have hdrop : skipSpaces ((nameText i.opcode i.strategy ++ ' ' :: writeOperands (b :: bs)).dropWhile (· != ' ')) =
        writeOperands (b :: bs) := by
      rw [List.dropWhile_append_of_pos hspace, hcs]
      rfl
    have hread := readOperands_writeOperands (b := b) (bs := bs) (length_le_length_writeOperands (b :: bs))
    simp only [htake, hname, hdrop, hread]
    rw [hcs]

end Sys2Proof.Machine
end
